-- ==== Sys2Proof/Word.lean ====
section
/-! DEFINITION. The units the block moves (20_memory R36): a bit, a byte, a sequence of bits. -/

namespace Sys2Proof

/-- A bit is 0 or 1 (R4): `false` is 0, `true` is 1. -/
abbrev Bit := Bool

/-- A byte is 8 bits (R3); bit 7 is the most significant (R6). -/
abbrev Byte := BitVec 8

/-- A bit sequence, indexed from 0 (R5 (b), R30). A codeword seen as a sequence has position `p` at index `p - 1`. -/
abbrev Bits := List Bit

end Sys2Proof
end

