-- ==== Sys2Proof/Config.lean ====
section
/-! DEFINITION. What an instance of the block fixes (00_scope R3, 10_state R17), and the one free value of the model. -/

namespace Sys2Proof

/-- The configuration of one instance (R3). `MODE >= 1` is part of the type: the block cannot be instantiated otherwise
(R60, R164). `none` is "unbounded" for `ERRW` (D7) and for `SEQMAX` (D22). -/
structure Config where
  /-- `MODE`, the number of data bits per codeword. -/
  mode : Nat
  /-- `ERRW`, the width in bits of `ERRCNT`. -/
  errw : Option Nat
  /-- `SEQMAX`, the largest length in bits of a sequence operand or result. -/
  seqmax : Option Nat
  mode_pos : 0 < mode
  errw_pos : 0 < errw.getD 1
  deriving DecidableEq, Repr

/-- DESIGN CHOICE (log 2 says where it is safe): the bit of `CW` at an index while it has no value (R12, R19: "a model must not assume zeros";
R18: after a stream operation what is left in it "is not defined"). A free value: nothing constrains it. The first
argument is the stamp of the event that left `CW` without a value, the second the sequence index. -/
opaque Config.freeCwBit (stamp index : Nat) : Bit

/-- DESIGN CHOICE (log 1): the instance whose reset state is `State.reset`: the source's worked `MODE = 8`, with `ERRCNT` and sequences
unbounded as in the source. Statements hold for every configuration. -/
def Config.worked : Config :=
  { mode := 8, errw := none, seqmax := none, mode_pos := by decide, errw_pos := by decide }

end Sys2Proof
end

