-- ==== Sys2Proof/Machine/Layout.lean ====
section
/-! DEFINITION. The codeword layout (41_interleaver R80 to R85, 30_encoding R50, R51): the parity-bit count, the slots, and
the two layout functions. The layout functions are the closed forms R84 and R85 give; the loops are in Machine/Loops.lean. -/

namespace Sys2Proof

/-- The loop of R80 from `s` on, for at most `fuel` more turns. -/
def Machine.parityCountFrom (m : Nat) : Nat → Nat → Nat
  | 0, s => s
  | fuel + 1, s => if 2 ^ s < s + m + 1 then Machine.parityCountFrom m fuel (s + 1) else s

/-- `parityCount(m)` (R80): the least `s` with `2^s >= s + m + 1`. `m + 1` turns are always enough. -/
def Machine.parityCount (m : Nat) : Nat := Machine.parityCountFrom m (m + 1) 0

/-- `S = parityCount(MODE)` (R3, R80). -/
def Config.s (c : Config) : Nat := Machine.parityCount c.mode

/-- `N = MODE + S` (R3). -/
def Config.n (c : Config) : Nat := c.mode + c.s

namespace Machine

/-- The positions `1..n` of a codeword, ascending (R5 (a)). -/
def positions (n : Nat) : List Nat := List.range' 1 n

/-- `isParityPos(p)`: `p` is a power of two (R82). -/
def isParityPos (p : Nat) : Bool := p == 2 ^ Nat.log2 p

/-- `c<p>`, the bit at position `p` (R5 (a)). -/
def bitAt (v : Bits) (p : Nat) : Bit := v.getD (p - 1) false

/-- `dataPos(i)` (R83): `i + t` with `t` the least integer such that `2^t > i + t`, that is `t = parityCount(i)`. -/
def dataPos (i : Nat) : Nat := i + parityCount i

/-- The data index of a data position `p`, counted from 1: `p - floor(log2(p)) - 1` (R83). -/
def dataIndex (p : Nat) : Nat := p - Nat.log2 p - 1

/-- `buildSkeleton(d)` (R84, closed form): 0 in the parity slots, data bit number `i` at `dataPos(i)`. -/
def buildSkeleton (c : Config) (d : Bits) : Bits :=
  (positions c.n).map fun p => if isParityPos p then false else bitAt d (dataIndex p)

/-- `stripParity(c)` (R85, closed form): the bits of the data slots in ascending position order. -/
def stripParity (c : Config) (v : Bits) : Bits :=
  ((positions c.n).filter fun p => !isParityPos p).map (bitAt v)

/-- What `CW` holds while it has no value (R12, R19): `N` free bits (log 2). -/
def freeCw (c : Config) (stamp : Nat) : Bits := (List.range c.n).map (Config.freeCwBit stamp)

end Machine

end Sys2Proof
end

