-- ==== Sys2Proof/Syntax.lean ====
section
/-! DEFINITION. The 18 operations (30_encoding R56) with the operands of their formats (R53), and the command that carries one. -/

namespace Sys2Proof

/-- One operation with its operands, in the order of the operation map (R56). Codewords `v` and blocks `d` are lists
(R58 (d): a list model refuses one of the wrong length); a draw is a natural number (R140). -/
inductive Instr where
  /-- LDCW `v` (R150), format C. -/
  | ldcw (v : Bits)
  /-- RDCW (R151), format Z. -/
  | rdcw
  /-- CLRERR (R152), format Z. -/
  | clrerr
  /-- RDERR (R153), format Z. -/
  | rderr
  /-- SER8 `y` (R70), format Y. -/
  | ser8 (y : List Byte)
  /-- DES8 `b` (R72), format B. -/
  | des8 (b : Bits)
  /-- ILV `d` (R86), format D. -/
  | ilv (d : Bits)
  /-- DLV (R87), format Z. -/
  | dlv
  /-- SYN (R102), format Z. -/
  | syn
  /-- SYNW (R103), format Z. -/
  | synw
  /-- SYNE (R104), format Z. -/
  | syne
  /-- ENCB `d` (R121), format D. -/
  | encb (d : Bits)
  /-- DECB `v` (R123), format C. -/
  | decb (v : Bits)
  /-- ENCS `b` (R124), format B. -/
  | encs (b : Bits)
  /-- DECS `e` (R126), format B. -/
  | decs (e : Bits)
  /-- FLIP1 `r` (R142), format P. -/
  | flip1 (r : Nat)
  /-- NOISE1 `b`, `R` (R143), format BR. -/
  | noise1 (b : Bits) (draws : List Nat)
  /-- NOISE4 `b`, `R` (R145), format BR. -/
  | noise4 (b : Bits) (draws : List Nat)
  deriving DecidableEq, Repr

/-- A command as the host hands it over (R54): the 5-bit field `op = cmd[4:0]` and, after it, the operand bits `cmd[5]`, `cmd[6]`, ...
How the operand fields lie in those bits is this model's transport (DESIGN CHOICE, log 4). -/
structure CommandWord where
  op : BitVec 5
  operands : Bits
  deriving DecidableEq, Repr

end Sys2Proof
end

