-- ==== Sys2Proof/WellFormed.lean ====
section
/-! DEFINITION. Which operations a command of an instance can carry: the operand widths of 30_encoding R53. -/

namespace Sys2Proof

/-- The operands have the widths of the operation's format (R53): `N` bits for C, `MODE` bits for D, `S` bits for each draw of P
and BR; sequences may have any length. -/
def WellFormed (c : Config) : Instr → Bool
  | .ldcw v => v.length == c.n
  | .rdcw => true
  | .clrerr => true
  | .rderr => true
  | .ser8 _ => true
  | .des8 _ => true
  | .ilv d => d.length == c.mode
  | .dlv => true
  | .syn => true
  | .synw => true
  | .syne => true
  | .encb d => d.length == c.mode
  | .decb v => v.length == c.n
  | .encs _ => true
  | .decs _ => true
  | .flip1 r => decide (r < 2 ^ c.s)
  | .noise1 _ draws => draws.all fun r => decide (r < 2 ^ c.s)
  | .noise4 _ draws => draws.all fun r => decide (r < 2 ^ c.s)

end Sys2Proof
end

