-- ==== Sys2Proof/Decode.lean ====
section
/-! DEFINITION. From a command word to an operation and back (30_encoding R53 to R57). The `op` values are the spec's; the
place of the operand fields in the operand bits is this model's transport (R54 leaves it to the platform; DESIGN CHOICE, log 4):
a C or D operand is its bits in sequence order; a draw is an `S`-bit field and a byte an 8-bit field, least significant bit
first (D5); a sequence is a row of beats, each a valid bit 1 and one element, ended by a valid bit 0. -/

namespace Sys2Proof

/-- Why a command word gives no operation. -/
inductive DecodeError where
  /-- `op` is one of the reserved values `0x12..0x1F` (R57). -/
  | reservedOp (op : BitVec 5)
  /-- The operand bits end before the operand does: an operand of the wrong length (R58 (d), R160; log 5). -/
  | shortOperand
  deriving DecidableEq, Repr

/-- A field of `k` bits and the bits after it. -/
def takeField (k : Nat) (bits : Bits) : Option (Bits × Bits) :=
  if k ≤ bits.length then some (bits.take k, bits.drop k) else none

/-- A sequence of beats of `k`-bit elements and the bits after it, reading at most `fuel` beats. -/
def takeBeats (k : Nat) : Nat → Bits → Option (List Bits × Bits)
  | 0, _ => none
  | _ + 1, [] => none
  | _ + 1, false :: rest => some ([], rest)
  | fuel + 1, true :: rest =>
    match takeField k rest with
    | none => none
    | some (element, rest') =>
      match takeBeats k fuel rest' with
      | none => none
      | some (elements, rest'') => some (element :: elements, rest'')

/-- The sequence operand at the head of the operand bits. -/
def takeSequence (k : Nat) (bits : Bits) : Option (List Bits × Bits) := takeBeats k bits.length bits

/-- The unsigned number of a field, least significant bit first. -/
def fieldValue (f : Bits) : Nat := f.foldr (fun b a => b.toNat + 2 * a) 0

/-- The `k`-bit field of an unsigned number, least significant bit first. -/
def fieldOf (k r : Nat) : Bits := (List.range k).map r.testBit

/-- The single bit of a one-bit element. -/
def bitOfElement (f : Bits) : Bit := f.headD false

/-- Operand format Z: none. -/
def operandZ (i : Instr) : Except DecodeError Instr := .ok i

/-- Operand formats C and D: one field of `k` bits, in sequence order. -/
def operandField (k : Nat) (mk : Bits → Instr) (bits : Bits) : Except DecodeError Instr :=
  match takeField k bits with
  | none => .error .shortOperand
  | some (v, _) => .ok (mk v)

/-- Operand format P: one draw of `S` bits. -/
def operandP (c : Config) (mk : Nat → Instr) (bits : Bits) : Except DecodeError Instr :=
  operandField c.s (fun f => mk (fieldValue f)) bits

/-- Operand format Y: a byte sequence. -/
def operandY (mk : List Byte → Instr) (bits : Bits) : Except DecodeError Instr :=
  match takeSequence 8 bits with
  | none => .error .shortOperand
  | some (y, _) => .ok (mk (y.map fun f => BitVec.ofNat 8 (fieldValue f)))

/-- Operand format B: a bit sequence. -/
def operandB (mk : Bits → Instr) (bits : Bits) : Except DecodeError Instr :=
  match takeSequence 1 bits with
  | none => .error .shortOperand
  | some (b, _) => .ok (mk (b.map bitOfElement))

/-- Operand format BR: a bit sequence, then a draw sequence. -/
def operandBR (c : Config) (mk : Bits → List Nat → Instr) (bits : Bits) : Except DecodeError Instr :=
  match takeSequence 1 bits with
  | none => .error .shortOperand
  | some (b, rest) =>
    match takeSequence c.s rest with
    | none => .error .shortOperand
    | some (draws, _) => .ok (mk (b.map bitOfElement) (draws.map fieldValue))

/-- The decoder for `op` (R56): all five bits are compared; `0x12..0x1F` select no operation (R57). Bits after the operands
belong to no field and are ignored (log 5). -/
def decode (c : Config) (w : CommandWord) : Except DecodeError Instr :=
  match w.op.toNat with
  | 0x00 => operandField c.n .ldcw w.operands
  | 0x01 => operandZ .rdcw
  | 0x02 => operandZ .clrerr
  | 0x03 => operandZ .rderr
  | 0x04 => operandY .ser8 w.operands
  | 0x05 => operandB .des8 w.operands
  | 0x06 => operandField c.mode .ilv w.operands
  | 0x07 => operandZ .dlv
  | 0x08 => operandZ .syn
  | 0x09 => operandZ .synw
  | 0x0A => operandZ .syne
  | 0x0B => operandField c.mode .encb w.operands
  | 0x0C => operandField c.n .decb w.operands
  | 0x0D => operandB .encs w.operands
  | 0x0E => operandB .decs w.operands
  | 0x0F => operandP c .flip1 w.operands
  | 0x10 => operandBR c .noise1 w.operands
  | 0x11 => operandBR c .noise4 w.operands
  | _ => .error (.reservedOp w.op)

/-- The `op` value of an operation (R56). -/
def opOf : Instr → BitVec 5
  | .ldcw _ => 0x00
  | .rdcw => 0x01
  | .clrerr => 0x02
  | .rderr => 0x03
  | .ser8 _ => 0x04
  | .des8 _ => 0x05
  | .ilv _ => 0x06
  | .dlv => 0x07
  | .syn => 0x08
  | .synw => 0x09
  | .syne => 0x0A
  | .encb _ => 0x0B
  | .decb _ => 0x0C
  | .encs _ => 0x0D
  | .decs _ => 0x0E
  | .flip1 _ => 0x0F
  | .noise1 _ _ => 0x10
  | .noise4 _ _ => 0x11

/-- The beats of a sequence and its end. -/
def beats (elements : List Bits) : Bits := elements.flatMap (true :: ·) ++ [false]

/-- The operand bits of an operation (R53, log 4). -/
def operandBits (c : Config) : Instr → Bits
  | .ldcw v => v
  | .rdcw => []
  | .clrerr => []
  | .rderr => []
  | .ser8 y => beats (y.map fun x => fieldOf 8 x.toNat)
  | .des8 b => beats (b.map ([·]))
  | .ilv d => d
  | .dlv => []
  | .syn => []
  | .synw => []
  | .syne => []
  | .encb d => d
  | .decb v => v
  | .encs b => beats (b.map ([·]))
  | .decs e => beats (e.map ([·]))
  | .flip1 r => fieldOf c.s r
  | .noise1 b draws => beats (b.map ([·])) ++ beats (draws.map (fieldOf c.s))
  | .noise4 b draws => beats (b.map ([·])) ++ beats (draws.map (fieldOf c.s))

/-- The command that carries an operation. -/
def encode (c : Config) (i : Instr) : CommandWord := ⟨opOf i, operandBits c i⟩

/-- The command whose bits `cmd[nbits-1:0]` are those of `w`, followed by zeros up to the longest fixed operand (`N` bits). -/
def tableCommand (c : Config) (nbits w : Nat) : CommandWord :=
  ⟨BitVec.ofNat 5 w, ((List.range (nbits - 5)).map fun k => w.testBit (5 + k)) ++ List.replicate c.n false⟩

/-- What the decoder reads from a row of the opcode table, at the configuration of `State.reset`. -/
def decodeTableWord (nbits w : Nat) : Option Instr :=
  (decode Config.worked (tableCommand Config.worked nbits w)).toOption

end Sys2Proof
end

