-- ==== Sys2Proof/Machine/State.lean ====
section
/-! DEFINITION. The machine's state (10_state R10), its responses (30_encoding R55), the host's moves (70_reset R186), and reset (R19). -/

namespace Sys2Proof.Machine

/-- The model has no fault: the block has no trap (60_exceptions R169), every operation ends (43_codec R131), and a failed
precondition is a refusal the block itself reports, which is a next state (R165). No one raises one; safe. -/
inductive Fault where
  deriving DecidableEq, Repr

/-- Why the model gives an instruction no meaning. -/
inductive Refusal where
  /-- Raised by `exec` for an instruction that has no meaning yet (none is left); safe: it stops where the hardware goes on. -/
  | notModelled (mnemonic : String)
  deriving DecidableEq, Repr

/-- Why the block refuses an operation (R166). -/
inductive Cause where
  /-- `ERR_OP`: a reserved `op`. -/
  | op
  /-- `ERR_LEN`: an operand or result of the wrong length, or too few draws. -/
  | len
  /-- `ERR_POS`: a draw that is not below `N`. -/
  | pos
  /-- `ERR_NOVAL`: `CW` is read while `CWV = 0`. -/
  | noVal
  deriving DecidableEq, Repr

/-- The results an operation delivers when its status is ok (R55). -/
inductive Result where
  /-- LDCW, CLRERR, ILV, SYNW, FLIP1. -/
  | done
  /-- RDCW, ENCB: `cw`. -/
  | codeword (cw : Bits)
  /-- RDERR: `errcnt`, `cmderr`, `errcode`. -/
  | status (errcnt : Nat) (cmderr : Bit) (errcode : BitVec 3)
  /-- DLV: `d`. -/
  | block (d : Bits)
  /-- SYN: `synd`. -/
  | syndrome (synd : Nat)
  /-- SYNE: `synd`, `unc`. -/
  | evaluation (synd : Nat) (unc : Bit)
  /-- DECB: `d`, `synd`, `unc`. -/
  | decoded (d : Bits) (synd : Nat) (unc : Bit)
  /-- SER8, ENCS, NOISE1, NOISE4: `OUT`. -/
  | bits (out : Bits)
  /-- DES8: a byte sequence. -/
  | bytes (y : List Byte)
  /-- DECS: a byte sequence and `errcnt`. -/
  | message (y : List Byte) (errcnt : Nat)
  deriving DecidableEq, Repr

/-- The block's answer to one command (R53, R55): ok with the results, or refused with the 3-bit code. -/
inductive Response where
  | ok (r : Result)
  | refused (code : BitVec 3)
  deriving DecidableEq, Repr

/-- What the host can do to the block, one move at a time (R186). -/
inductive HostMove where
  | command (w : CommandWord)
  | reset
  deriving DecidableEq, Repr

/-- The state: the five elements of R10, the instance's configuration (R17: no operation writes it; log 1), and the model's
interface: the last response (log 7), the host's pending moves (log 6) and the stamp of the next free value of `CW` (log 3). -/
structure State where
  /-- `MODE`, `ERRW`, `SEQMAX` of this instance. -/
  cfg : Config
  /-- `CW`: `CW<p>` is element `p - 1` (R11). -/
  cw : Bits
  /-- `CWV` (R12). -/
  cwv : Bit
  /-- `ERRCNT` (R13). -/
  errcnt : Nat
  /-- `CMDERR` (R15). -/
  cmderr : Bit
  /-- `ERRCODE` (R15). -/
  errcode : BitVec 3
  /-- The response to the last command, `none` before the first one after a reset. -/
  rsp : Option Response
  /-- The host's moves still to come, the next one first (R40). -/
  inbox : List HostMove
  /-- The model's own counter: which free value `CW` gets when it next loses its value. -/
  stamp : Nat
  deriving DecidableEq, Repr

/-- The block of configuration `c` right after reset (R19), with no command pending. `CW` has no value: free bits (log 2). -/
def State.resetOf (c : Config) : State :=
  { cfg := c, cw := freeCw c 0, cwv := false, errcnt := 0, cmderr := false, errcode := 0#3, rsp := none, inbox := [], stamp := 1 }

/-- The machine right after reset, as an instance of `Config.worked` (log 1). -/
def State.reset : State := State.resetOf Config.worked

end Sys2Proof.Machine
end

