-- ==== Sys2Proof/Machine/Flags.lean ====
section
/-! DEFINITION. The status computations: refusal codes (60_exceptions R166) and the saturating counter (10_state R13). There are
no condition codes and no arithmetic flags (R16). -/

namespace Sys2Proof.Machine

/-- The 3-bit code of a refusal (R166). 0 is `ERR_NONE`; 5 to 7 are never written. -/
def Cause.code : Cause → BitVec 3
  | .op => 1
  | .len => 2
  | .pos => 3
  | .noVal => 4

/-- `min(k, 2^ERRW - 1)`, and `k` itself when `ERRW` is unbounded (R13). -/
def saturate (c : Config) (k : Nat) : Nat :=
  match c.errw with
  | none => k
  | some w => min k (2 ^ w - 1)

/-- `ERRCNT <- min(ERRCNT + u, 2^ERRW - 1)` (R13): SYNE and DECB. -/
def addErrors (u : Nat) (s : State) : State := { s with errcnt := saturate s.cfg (s.errcnt + u) }

/-- `ERRCNT <- min(u, 2^ERRW - 1)` (R13, R126): DECS. -/
def setErrors (u : Nat) (s : State) : State := { s with errcnt := saturate s.cfg u }

/-- `ERRCNT <- 0` (R152): CLRERR. -/
def clearErrors (s : State) : State := { s with errcnt := 0 }

end Sys2Proof.Machine
end

