-- ==== Sys2Proof/Machine/Operands.lean ====
section
/-! DEFINITION. The precondition checks on operands and state (30_encoding R58, 20_memory R38, 10_state R12): each answers the
cause of a refusal, or none. `Option.or` of two checks keeps the first cause, which is the priority of R167. -/

namespace Sys2Proof.Machine

/-- A C operand whose length is not `N` (R58 (d)). -/
def codewordError (c : Config) (v : Bits) : Option Cause := if v.length = c.n then none else some .len

/-- A D operand whose length is not `MODE` (R58 (d)). -/
def blockError (c : Config) (d : Bits) : Option Cause := if d.length = c.mode then none else some .len

/-- Whether a sequence of `len` bits is within `SEQMAX` (R38). -/
def fits (c : Config) (len : Nat) : Bool :=
  match c.seqmax with
  | none => true
  | some m => decide (len ≤ m)

/-- An operand of `operand` bits or a result of `result` bits longer than `SEQMAX` (R38, R58 (e)). -/
def sequenceError (c : Config) (operand result : Nat) : Option Cause :=
  if fits c operand && fits c result then none else some .len

/-- A DES8 operand whose length is not a multiple of 8 (R58 (c), R72). -/
def wholeByteError (b : Bits) : Option Cause := if b.length % 8 = 0 then none else some .len

/-- Fewer draws than the operation needs (R58 (b)). -/
def drawCountError (needed : Nat) (draws : List Nat) : Option Cause := if needed ≤ draws.length then none else some .len

/-- A draw that is not below `N` (R58 (a)). -/
def drawRangeError (c : Config) (draws : List Nat) : Option Cause :=
  if draws.all fun r => decide (r < c.n) then none else some .pos

/-- `CW` is to be read and has no value (R12). -/
def noValueError (s : State) : Option Cause := if s.cwv then none else some .noVal

end Sys2Proof.Machine
end

