-- ==== Sys2Proof/Machine/Ops.lean ====
section
/-! DEFINITION. The named operations over the state that the meanings are written with: delivering a response, refusing an
operation (the one thing in this block that stands where other machines take an exception, 60_exceptions R165, R169; there is
no return from it, R170), writing and losing `CW`, and the reset event (70_reset R180). -/

namespace Sys2Proof.Machine

/-- The outcome of a step of this machine. -/
abbrev Answer := Host.Outcome State Fault Refusal

/-- The operation completes with status ok and the given results (R55). -/
def respond (r : Result) (s : State) : State := { s with rsp := some (.ok r) }

/-- The operation is refused (R165): `CMDERR <- 1`, `ERRCODE <- code`, the response carries the code and no result, and
nothing else changes. -/
def refuse (e : Cause) (s : State) : State :=
  { s with cmderr := true, errcode := e.code, rsp := some (.refused e.code) }

/-- Every operation first checks its preconditions, before it changes any state (R165): refused in `s` when a check gave a
cause, else completed as `t`. -/
def checked (e : Option Cause) (s t : State) : Answer :=
  match e with
  | some e => .next (refuse e s)
  | none => .next t

/-- `CW <- v`, `CWV <- 1`: LDCW, ILV, ENCB, DECB (R12, R18). -/
def setCw (v : Bits) (s : State) : State := { s with cw := v, cwv := true }

/-- `CW <- v` by an operation that found `CWV = 1`: SYNW, SYNE, FLIP1 (R18). -/
def updateCw (v : Bits) (s : State) : State := { s with cw := v }

/-- `CWV <- 0` (R12, R18): what `CW` holds from then on is not defined, a free value (log 2, log 3). -/
def dropCw (s : State) : State := { s with cwv := false, cw := freeCw s.cfg s.stamp, stamp := s.stamp + 1 }

/-- The reset event (R180, R19): the five elements take their reset values, `CW` without a value; the configuration is
untouched; no response is pending (log 7). -/
def applyReset (s : State) : State :=
  { dropCw s with errcnt := 0, cmderr := false, errcode := 0#3, rsp := none }

/-- How a command that selects no operation is refused: `ERR_OP` for a reserved `op` (R57), `ERR_LEN` for an operand that is
too short (R58 (d), log 5). -/
def DecodeError.cause : DecodeError → Cause
  | .reservedOp _ => .op
  | .shortOperand => .len

/-- The operation a command carries, at this instance's configuration. -/
def decodeCommand (s : State) (w : CommandWord) : Except DecodeError Instr := decode s.cfg w

/-- The state in which the host's first pending move has been taken and `rest` is still to come (R40). -/
def takeMove (rest : List HostMove) (s : State) : State := { s with inbox := rest }

end Sys2Proof.Machine
end

