-- ==== Sys2Proof/Machine/Sequence.lean ====
section
/-! DEFINITION. Bit and byte sequences: length adjustments (20_memory R34), byte order (R31) and conversion (40_bit_conversion
R70, R71), and the complementing of bits (44_noise R141). -/

namespace Sys2Proof.Machine

/-- `padTo(b, m)` (R34). -/
def padTo (b : Bits) (m : Nat) : Bits := b ++ List.replicate ((m - b.length % m) % m) false

/-- `segment(b, n)` (R34): the whole groups of `n`; the remainder is in none. Also groups the draws of NOISE4 by four (R145). -/
def segment {α : Type} (b : List α) (n : Nat) : List (List α) :=
  (List.range (b.length / n)).map fun k => (b.drop (k * n)).take n

/-- `wholeBytes(b)` (R34). -/
def wholeBytes (b : Bits) : Bits := b.take (8 * (b.length / 8))

/-- The 8 bits of a byte, most significant first (R31). -/
def bitsOfByte (y : Byte) : Bits := (List.range 8).map fun u => y.getLsbD (7 - u)

/-- `bytesToBits(y)` (R70). -/
def bytesToBits (y : List Byte) : Bits := y.flatMap bitsOfByte

/-- The byte whose bits are `b[0..7]`, most significant first: the sum of `b[u] * 2^(7-u)` (R71). -/
def byteOfBits (b : Bits) : Byte :=
  BitVec.ofNat 8 ((List.range 8).map fun u => (b.getD u false).toNat * 2 ^ (7 - u)).sum

/-- `bitsToBytes(b)` (R71). -/
def bitsToBytes (b : Bits) : List Byte := (segment b 8).map byteOfBits

/-- `v` with the bit at every sequence index in `indices` complemented once (R145: "a set"). -/
def complementAt (v : Bits) (indices : List Nat) : Bits :=
  v.zipIdx.map fun bi => if indices.contains bi.2 then !bi.1 else bi.1

/-- `flipAt(c, r)` (R141): the bit at sequence index `r` complemented, every other bit unchanged. -/
def flipAt (v : Bits) (r : Nat) : Bits := complementAt v [r]

end Sys2Proof.Machine
end

