-- ==== Sys2Proof/Machine/BitConversion.lean ====
section
/-! DEFINITION. Bit conversion (40_bit_conversion R70, R72): SER8, DES8. -/

namespace Sys2Proof.Machine

/-- SER8 (R70): refused only when `8 * B` bits exceed `SEQMAX` (R38). -/
def execSer8 (y : List Byte) (s : State) : Answer :=
  checked (sequenceError s.cfg (8 * y.length) (bytesToBits y).length) s (respond (.bits (bytesToBits y)) s)

/-- DES8 (R72): refused when the length is not a multiple of 8, and when it exceeds `SEQMAX` (R58 (e), log 10). -/
def execDes8 (b : Bits) (s : State) : Answer :=
  checked ((sequenceError s.cfg b.length (8 * (bitsToBytes b).length)).or (wholeByteError b)) s
    (respond (.bytes (bitsToBytes b)) s)

end Sys2Proof.Machine
end

