-- ==== Sys2Proof/Machine/Parity.lean ====
section
/-! DEFINITION. The syndrome-XOR tree and the two modes of the syndrome engine as pure functions (42_syndrome R95 to R101). -/

namespace Sys2Proof.Machine

/-- `cover(i)` (R95, closed form): the positions `1..N` whose binary digit `i` is 1. -/
def cover (c : Config) (i : Nat) : List Nat := (positions c.n).filter fun q => q.testBit i

/-- The exclusive-or of the bits of `v` at the given positions, 0 for none (R4). -/
def xorAt (v : Bits) (qs : List Nat) : Bit := (qs.map (bitAt v)).foldr xor false

/-- `sind(c, i)` (R96): the exclusive-or over `cover(i)`, the parity slot itself among them. -/
def sind (c : Config) (v : Bits) (i : Nat) : Bit := xorAt v (cover c i)

/-- `syndrome(c)` (R97): the sum of `2^i * sind(c, i)` over the parity indices. -/
def syndrome (c : Config) (v : Bits) : Nat := ((List.range c.s).map fun i => 2 ^ i * (sind c v i).toNat).sum

/-- `writeParity(c)` (R99): parity slot `2^i` receives `sind(c, i)`, every data position keeps its bit. -/
def writeParity (c : Config) (v : Bits) : Bits :=
  (positions c.n).map fun p => if isParityPos p then sind c v (Nat.log2 p) else bitAt v p

/-- What the evaluate mode gives for one codeword (R101): the codeword after the step, the syndrome before it, and `unc`. -/
structure Correction where
  cw : Bits
  synd : Nat
  unc : Bit
  deriving DecidableEq, Repr

/-- `correct(c)` (R101). -/
def correct (c : Config) (v : Bits) : Correction :=
  if syndrome c v = 0 then ⟨v, syndrome c v, false⟩
  else if syndrome c v ≤ c.n then ⟨flipAt v (syndrome c v - 1), syndrome c v, false⟩
  else ⟨v, syndrome c v, true⟩

end Sys2Proof.Machine
end

