-- ==== Sys2Proof/Machine/Code.lean ====
section
/-! DEFINITION. The encoder and the decoder, per codeword and per stream, and the noise generators, as pure functions
(43_codec R120, R122, R124, R126; 44_noise R143, R145). -/

namespace Sys2Proof.Machine

/-- `encodeBlock(d)` (R120). -/
def encodeBlock (c : Config) (d : Bits) : Bits := writeParity c (buildSkeleton c d)

/-- What `decodeCodeword` gives (R122): the data block, the syndrome, and `unc`. -/
structure Decoded where
  data : Bits
  synd : Nat
  unc : Bit
  deriving DecidableEq, Repr

/-- `decodeCodeword(c)` (R122): correct, then strip the parity. -/
def decodeCodeword (c : Config) (v : Bits) : Decoded :=
  ⟨stripParity c (correct c v).cw, (correct c v).synd, (correct c v).unc⟩

/-- The result of ENCS (R124): pad, cut into blocks, encode each, concatenate. -/
def encodeStream (c : Config) (b : Bits) : Bits := (segment (padTo b c.mode) c.mode).flatMap (encodeBlock c)

/-- The data bits DECS recovers before `wholeBytes` (R126): `K * MODE` bits. -/
def decodedBits (c : Config) (e : Bits) : Bits := (segment e c.n).flatMap fun w => (decodeCodeword c w).data

/-- The bytes DECS returns (R126). -/
def decodeStream (c : Config) (e : Bits) : List Byte := bitsToBytes (wholeBytes (decodedBits c e))

/-- `u` of DECS (R126): the number of uncorrectable codewords of the stream. -/
def uncorrectable (c : Config) (e : Bits) : Nat :=
  ((segment e c.n).map fun w => (decodeCodeword c w).unc.toNat).sum

/-- The result of NOISE1 (R143): codeword `k` with index `R[k]` complemented. -/
def noiseOne (c : Config) (b : Bits) (draws : List Nat) : Bits :=
  (List.zipWith flipAt (segment b c.n) draws).flatten

/-- The result of NOISE4 (R145): codeword `k` with every distinct index among `R[4k] .. R[4k+3]` complemented once. -/
def noiseFour (c : Config) (b : Bits) (draws : List Nat) : Bits :=
  (List.zipWith complementAt (segment b c.n) (segment draws 4)).flatten

end Sys2Proof.Machine
end

