-- ==== Sys2Proof/Machine/Codec.lean ====
section
/-! DEFINITION. The encoder and the decoder (43_codec R121, R123, R124, R126): ENCB, DECB, ENCS, DECS. -/

namespace Sys2Proof.Machine

/-- ENCB (R121). -/
def execEncb (d : Bits) (s : State) : Answer :=
  checked (blockError s.cfg d) s
    (respond (.codeword (encodeBlock s.cfg d)) (setCw (encodeBlock s.cfg d) s))

/-- DECB (R123): `CW` keeps the codeword after the correction step. -/
def execDecb (v : Bits) (s : State) : Answer :=
  checked (codewordError s.cfg v) s
    (respond (.decoded (decodeCodeword s.cfg v).data (decodeCodeword s.cfg v).synd (decodeCodeword s.cfg v).unc)
      (addErrors (decodeCodeword s.cfg v).unc.toNat (setCw (correct s.cfg v).cw s)))

/-- ENCS (R124). -/
def execEncs (b : Bits) (s : State) : Answer :=
  checked (sequenceError s.cfg b.length (encodeStream s.cfg b).length) s
    (respond (.bits (encodeStream s.cfg b)) (dropCw s))

/-- DECS (R126): `ERRCNT` is set to this call's own total, and returned. -/
def execDecs (e : Bits) (s : State) : Answer :=
  checked (sequenceError s.cfg e.length (8 * (decodeStream s.cfg e).length)) s
    (respond (.message (decodeStream s.cfg e) (saturate s.cfg (uncorrectable s.cfg e)))
      (setErrors (uncorrectable s.cfg e) (dropCw s)))

end Sys2Proof.Machine
end

