-- ==== Sys2Proof/Machine/Interleaver.lean ====
section
/-! DEFINITION. The bit-position interleaver (41_interleaver R86, R87): ILV, DLV. -/

namespace Sys2Proof.Machine

/-- ILV (R86). -/
def execIlv (d : Bits) (s : State) : Answer :=
  checked (blockError s.cfg d) s (respond .done (setCw (buildSkeleton s.cfg d) s))

/-- DLV (R87). -/
def execDlv (s : State) : Answer := checked (noValueError s) s (respond (.block (stripParity s.cfg s.cw)) s)

end Sys2Proof.Machine
end

