-- ==== Sys2Proof/Machine/Noise.lean ====
section
/-! DEFINITION. The noise generators (44_noise R142, R143, R145): FLIP1, NOISE1, NOISE4. -/

namespace Sys2Proof.Machine

/-- FLIP1 (R142): `ERR_POS` before `ERR_NOVAL` (R167). -/
def execFlip1 (r : Nat) (s : State) : Answer :=
  checked ((drawRangeError s.cfg [r]).or (noValueError s)) s (respond .done (updateCw (flipAt s.cw r) s))

/-- NOISE1 (R143): `K = floor(L / N)` draws are used, the others are ignored. -/
def execNoise1 (b : Bits) (draws : List Nat) (s : State) : Answer :=
  checked
    ((sequenceError s.cfg b.length (noiseOne s.cfg b draws).length).or
      ((drawCountError (b.length / s.cfg.n) draws).or
        (drawRangeError s.cfg (draws.take (b.length / s.cfg.n)))))
    s (respond (.bits (noiseOne s.cfg b draws)) (dropCw s))

/-- NOISE4 (R145): `4 * K` draws are used, four for each codeword. -/
def execNoise4 (b : Bits) (draws : List Nat) (s : State) : Answer :=
  checked
    ((sequenceError s.cfg b.length (noiseFour s.cfg b draws).length).or
      ((drawCountError (4 * (b.length / s.cfg.n)) draws).or
        (drawRangeError s.cfg (draws.take (4 * (b.length / s.cfg.n))))))
    s (respond (.bits (noiseFour s.cfg b draws)) (dropCw s))

end Sys2Proof.Machine
end

