-- ==== Sys2Proof/Machine/SyndromeEngine.lean ====
section
/-! DEFINITION. The syndrome engine (42_syndrome R102 to R104): SYN, SYNW, SYNE. -/

namespace Sys2Proof.Machine

/-- SYN (R102). -/
def execSyn (s : State) : Answer := checked (noValueError s) s (respond (.syndrome (syndrome s.cfg s.cw)) s)

/-- SYNW (R103). -/
def execSynw (s : State) : Answer :=
  checked (noValueError s) s (respond .done (updateCw (writeParity s.cfg s.cw) s))

/-- SYNE (R104): an uncorrectable codeword is a result and is counted, not refused. -/
def execSyne (s : State) : Answer :=
  checked (noValueError s) s
    (respond (.evaluation (correct s.cfg s.cw).synd (correct s.cfg s.cw).unc)
      (addErrors (correct s.cfg s.cw).unc.toNat (updateCw (correct s.cfg s.cw).cw s)))

end Sys2Proof.Machine
end

