-- ==== Sys2Proof/Machine/System.lean ====
section
/-! DEFINITION. Register access and counter operations (45_system R150 to R153): LDCW, RDCW, CLRERR, RDERR. -/

namespace Sys2Proof.Machine

/-- LDCW (R150). -/
def execLdcw (v : Bits) (s : State) : Answer := checked (codewordError s.cfg v) s (respond .done (setCw v s))

/-- RDCW (R151). -/
def execRdcw (s : State) : Answer := checked (noValueError s) s (respond (.codeword s.cw) s)

/-- CLRERR (R152): `CMDERR` and `ERRCODE` are not cleared. -/
def execClrerr (s : State) : Answer := .next (respond .done (clearErrors s))

/-- RDERR (R153): reading clears nothing. -/
def execRderr (s : State) : Answer := .next (respond (.status s.errcnt s.cmderr s.errcode) s)

end Sys2Proof.Machine
end

