-- ==== Sys2Proof/Machine/Dispatch.lean ====
section
/-! DEFINITION. One arm per operation (30_encoding R56), each one call of its meaning. -/

namespace Sys2Proof.Machine

def exec (i : Instr) (s : State) : Host.Outcome State Fault Refusal :=
  match i with
  | .ldcw v => Sys2Proof.Machine.execLdcw v s
  | .rdcw => Sys2Proof.Machine.execRdcw s
  | .clrerr => Sys2Proof.Machine.execClrerr s
  | .rderr => Sys2Proof.Machine.execRderr s
  | .ser8 y => Sys2Proof.Machine.execSer8 y s
  | .des8 b => Sys2Proof.Machine.execDes8 b s
  | .ilv d => Sys2Proof.Machine.execIlv d s
  | .dlv => Sys2Proof.Machine.execDlv s
  | .syn => Sys2Proof.Machine.execSyn s
  | .synw => Sys2Proof.Machine.execSynw s
  | .syne => Sys2Proof.Machine.execSyne s
  | .encb d => Sys2Proof.Machine.execEncb d s
  | .decb v => Sys2Proof.Machine.execDecb v s
  | .encs b => Sys2Proof.Machine.execEncs b s
  | .decs e => Sys2Proof.Machine.execDecs e s
  | .flip1 r => Sys2Proof.Machine.execFlip1 r s
  | .noise1 b draws => Sys2Proof.Machine.execNoise1 b draws s
  | .noise4 b draws => Sys2Proof.Machine.execNoise4 b draws s

end Sys2Proof.Machine
end

