-- ==== Sys2Proof/Machine/Step.lean ====
section
/-! DEFINITION. One step: the host's next move is taken and answered (20_memory R40). With no move pending the block waits
(70_reset R180; log 6). -/

namespace Sys2Proof.Machine

/-- One step. A command that selects no operation is refused (R57, R58), which is a next state. -/
def step (s : State) : Host.Outcome State Fault Refusal :=
  match s.inbox with
  | [] => .next s
  | .reset :: rest => .next (applyReset (takeMove rest s))
  | .command w :: rest =>
    match decodeCommand s w with
    | .ok i => exec i (takeMove rest s)
    | .error e => .next (refuse (DecodeError.cause e) (takeMove rest s))

/-- `s` with the instruction of an opcode-table row placed as the host's next command (log 6). -/
def State.withFetchWord (s : State) (nbits w : Nat) : State :=
  { s with inbox := .command (tableCommand s.cfg nbits w) :: s.inbox }

end Sys2Proof.Machine
end

