-- ==== Sys2Proof/Machine/Loops.lean ====
section
/-! DEFINITION. The spec's loop forms of the functions this model defines by their closed forms (R84, R85, R95, R97, R99): the
obligations say the two agree. No instruction's meaning calls them. -/

namespace Sys2Proof.Machine

/-- The loop of R84: insert a 0 at sequence index `2^j - 1` for `j = 0..S-1`. -/
def buildSkeletonLoop (c : Config) (d : Bits) : Bits :=
  (List.range c.s).foldl (fun v j => v.take (2 ^ j - 1) ++ [false] ++ v.drop (2 ^ j - 1)) d

/-- The loop of R85: delete sequence index `2^j - j - 1` for `j = 0..S-1`. -/
def stripParityLoop (c : Config) (v : Bits) : Bits :=
  (List.range c.s).foldl (fun t j => t.take (2 ^ j - j - 1) ++ t.drop (2 ^ j - j)) v

/-- The loop of R99: `c<2^i> <- sind(c, i)` for `i = 0..S-1`, each `sind` taken from the codeword as it stands. -/
def writeParityLoop (c : Config) (v : Bits) : Bits :=
  (List.range c.s).foldl (fun t i => t.set (2 ^ i - 1) (sind c t i)) v

/-- The digit-wise exclusive-or of the positions of the set bits (R97). -/
def xorOfSetPositions (c : Config) (v : Bits) : Nat :=
  ((positions c.n).filter (bitAt v)).foldr (· ^^^ ·) 0

end Sys2Proof.Machine
end

