-- ==== Sys2Proof/Safety.lean ====
section
/-! DEFINITION. The terms claims are written in: valid codewords and errors in them (42_syndrome R98), the invariant of the state,
the access table (10_state R18) and the response widths (30_encoding R55). No meaning calls these. -/

namespace Sys2Proof.Machine

/-- `a ^ b`, bit by bit (R98). -/
def xorBits (a b : Bits) : Bits := List.zipWith xor a b

/-- `c ^ e_E`: the bits at the positions (1-indexed) of `E` complemented (R98). -/
def flipPositions (v : Bits) (E : List Nat) : Bits := complementAt v (E.map (· - 1))

/-- The digit-wise exclusive-or of a list of positions (R98). -/
def xorOf (E : List Nat) : Nat := E.foldr (· ^^^ ·) 0

/-- The number of indices in which two sequences of one length differ (R144). -/
def hamming (a b : Bits) : Nat := (xorBits a b).countP id

/-- A valid codeword (R98): `N` bits whose syndrome is 0. -/
abbrev ValidCodeword (c : Config) (v : Bits) : Prop := v.length = c.n ∧ syndrome c v = 0

/-- `E` names distinct positions of a codeword. -/
abbrev ErrorPattern (c : Config) (E : List Nat) : Prop := E.Nodup ∧ ∀ q ∈ E, 1 ≤ q ∧ q ≤ c.n

/-- A sequence of `len` bits is within `SEQMAX` (R38); always so when it is unbounded. -/
abbrev WithinSeqmax (c : Config) (len : Nat) : Prop := ∀ m ∈ c.seqmax, len ≤ m

/-- When the last response is a refusal, `CMDERR` and `ERRCODE` record it (R165). -/
def refusalRecorded (s : State) : Bool :=
  match s.rsp with
  | some (.refused code) => s.cmderr && s.errcode == code
  | _ => true

/-- The invariant of the state: `CW` is `N` bits wide (R11), `ERRCNT` fits its width (R13), `ERRCODE` is a code of R166, `CMDERR` is 1
exactly when a code has been recorded (R15), and the last refusal is the one recorded (R165). -/
abbrev State.Inv (s : State) : Prop :=
  s.cw.length = s.cfg.n ∧ saturate s.cfg s.errcnt = s.errcnt ∧ s.errcode.toNat ≤ 4 ∧
    (s.cmderr = true ↔ s.errcode ≠ 0#3) ∧ refusalRecorded s = true

/-- The table of results (R55): which results each operation delivers when its status is ok, and their widths: `N` bits of `cw`, `MODE`
bits of `d`, `S` bits of `synd`, `ERRW` bits of `errcnt`. -/
def ResultFits (c : Config) : Instr → Result → Prop
  | .ldcw _, .done => True
  | .clrerr, .done => True
  | .ilv _, .done => True
  | .synw, .done => True
  | .flip1 _, .done => True
  | .rdcw, .codeword cw => cw.length = c.n
  | .rderr, .status errcnt _ _ => saturate c errcnt = errcnt
  | .dlv, .block d => d.length = c.mode
  | .syn, .syndrome synd => synd < 2 ^ c.s
  | .syne, .evaluation synd _ => synd < 2 ^ c.s
  | .encb _, .codeword cw => cw.length = c.n
  | .decb _, .decoded d synd _ => d.length = c.mode ∧ synd < 2 ^ c.s
  | .ser8 _, .bits _ => True
  | .encs _, .bits _ => True
  | .noise1 _ _, .bits _ => True
  | .noise4 _ _, .bits _ => True
  | .des8 _, .bytes _ => True
  | .decs _, .message _ errcnt => saturate c errcnt = errcnt
  | _, _ => False

/-- An operand of the wrong length, too few draws, or a sequence longer than `SEQMAX` (R58 (b) to (e), R166: `ERR_LEN`). -/
def LengthFault (c : Config) : Instr → Prop
  | .ldcw v => v.length ≠ c.n
  | .decb v => v.length ≠ c.n
  | .ilv d => d.length ≠ c.mode
  | .encb d => d.length ≠ c.mode
  | .ser8 y => ¬WithinSeqmax c (8 * y.length)
  | .des8 b => b.length % 8 ≠ 0 ∨ ¬WithinSeqmax c b.length
  | .encs b => ¬WithinSeqmax c b.length ∨ ¬WithinSeqmax c ((b.length + c.mode - 1) / c.mode * c.n)
  | .decs e => ¬WithinSeqmax c e.length
  | .noise1 b draws => draws.length < b.length / c.n ∨ ¬WithinSeqmax c b.length
  | .noise4 b draws => draws.length < 4 * (b.length / c.n) ∨ ¬WithinSeqmax c b.length
  | .rdcw => False
  | .clrerr => False
  | .rderr => False
  | .dlv => False
  | .syn => False
  | .synw => False
  | .syne => False
  | .flip1 _ => False

/-- A draw that the operation uses and that is not below `N` (R58 (a), R166: `ERR_POS`). -/
def PositionFault (c : Config) : Instr → Prop
  | .flip1 r => c.n ≤ r
  | .noise1 b draws => ∃ r ∈ draws.take (b.length / c.n), c.n ≤ r
  | .noise4 b draws => ∃ r ∈ draws.take (4 * (b.length / c.n)), c.n ≤ r
  | .ldcw _ => False
  | .rdcw => False
  | .clrerr => False
  | .rderr => False
  | .ser8 _ => False
  | .des8 _ => False
  | .ilv _ => False
  | .dlv => False
  | .syn => False
  | .synw => False
  | .syne => False
  | .encb _ => False
  | .decb _ => False
  | .encs _ => False
  | .decs _ => False

/-- The stream operations, after which `CW` has no value (R12). -/
def isStream : Instr → Bool
  | .encs _ => true
  | .decs _ => true
  | .noise1 _ _ => true
  | .noise4 _ _ => true
  | .ldcw _ => false
  | .rdcw => false
  | .clrerr => false
  | .rderr => false
  | .ser8 _ => false
  | .des8 _ => false
  | .ilv _ => false
  | .dlv => false
  | .syn => false
  | .synw => false
  | .syne => false
  | .encb _ => false
  | .decb _ => false
  | .flip1 _ => false

/-- The operations that set `CWV` (R12): LDCW, ILV, ENCB, DECB. -/
def suppliesCw : Instr → Bool
  | .ldcw _ => true
  | .ilv _ => true
  | .encb _ => true
  | .decb _ => true
  | .rdcw => false
  | .clrerr => false
  | .rderr => false
  | .ser8 _ => false
  | .des8 _ => false
  | .dlv => false
  | .syn => false
  | .synw => false
  | .syne => false
  | .encs _ => false
  | .decs _ => false
  | .flip1 _ => false
  | .noise1 _ _ => false
  | .noise4 _ _ => false

/-- The operations that read `CW` (R12, R18). -/
def readsCw : Instr → Bool
  | .rdcw => true
  | .dlv => true
  | .syn => true
  | .synw => true
  | .syne => true
  | .flip1 _ => true
  | .ldcw _ => false
  | .clrerr => false
  | .rderr => false
  | .ser8 _ => false
  | .des8 _ => false
  | .ilv _ => false
  | .encb _ => false
  | .decb _ => false
  | .encs _ => false
  | .decs _ => false
  | .noise1 _ _ => false
  | .noise4 _ _ => false

/-- The operations that change `CW` in place (R18): SYNW, SYNE, FLIP1. -/
def editsCw : Instr → Bool
  | .synw => true
  | .syne => true
  | .flip1 _ => true
  | .ldcw _ => false
  | .rdcw => false
  | .clrerr => false
  | .rderr => false
  | .ser8 _ => false
  | .des8 _ => false
  | .ilv _ => false
  | .dlv => false
  | .syn => false
  | .encb _ => false
  | .decb _ => false
  | .encs _ => false
  | .decs _ => false
  | .noise1 _ _ => false
  | .noise4 _ _ => false

/-- The operations that write `ERRCNT` (R13, R18): CLRERR, SYNE, DECB, DECS. -/
def writesErrcnt : Instr → Bool
  | .clrerr => true
  | .syne => true
  | .decb _ => true
  | .decs _ => true
  | .ldcw _ => false
  | .rdcw => false
  | .rderr => false
  | .ser8 _ => false
  | .des8 _ => false
  | .ilv _ => false
  | .dlv => false
  | .syn => false
  | .synw => false
  | .encb _ => false
  | .encs _ => false
  | .flip1 _ => false
  | .noise1 _ _ => false
  | .noise4 _ _ => false

end Sys2Proof.Machine
end

