-- ==== Sys2Proof/Certificates/Slice0/Obligations.lean ====
section
/-! DEFINITION. The statements for the provers, from the spec's numbered rules. The block has no memory (R30), so a frame speaks of
every field of the state; a result statement gives the whole next state. After a stream operation `CW` has no value (R12, R18): those
statements say nothing of `t.cw` and `t.stamp` (log 2, log 3). -/

open Sys2Proof Sys2Proof.Machine

/-! ## Register access and the counter -/

/-- R150. LDCW: its code, its effect (any `N`-bit value is accepted), its one refusal. -/
def Obligations.LdcwLoadsTheCodewordRegister : Prop :=
  ∀ (s : State) (v : Bits),
    opOf (.ldcw v) = 0x00#5 ∧
    (v.length = s.cfg.n → exec (.ldcw v) s = .next { s with cw := v, cwv := true, rsp := some (.ok .done) }) ∧
    (v.length ≠ s.cfg.n → exec (.ldcw v) s = .next (refuse .len s))

/-- R151. RDCW: its code, its result, its refusal, which comes after reset and after a stream operation. -/
def Obligations.RdcwReadsTheCodewordRegister : Prop :=
  (∀ s : State,
    opOf .rdcw = 0x01#5 ∧
    (s.cwv = true → exec .rdcw s = .next { s with rsp := some (.ok (.codeword s.cw)) }) ∧
    (s.cwv = false → exec .rdcw s = .next (refuse .noVal s))) ∧
  (∀ c : Config, exec .rdcw (State.resetOf c) = .next (refuse .noVal (State.resetOf c))) ∧
  (∀ (i : Instr) (s t : State) (r : Result), isStream i = true → exec i s = .next t → t.rsp = some (.ok r) →
    exec .rdcw t = .next (refuse .noVal t))

/-- R152. CLRERR clears `ERRCNT` and nothing else. -/
def Obligations.ClrerrClearsOnlyTheCounter : Prop :=
  ∀ s : State, opOf .clrerr = 0x02#5 ∧ exec .clrerr s = .next { s with errcnt := 0, rsp := some (.ok .done) }

/-- R153. RDERR delivers the status and changes nothing; a saturated count is a lower bound of the true one. -/
def Obligations.RderrReadsTheStatus : Prop :=
  (∀ s : State,
    opOf .rderr = 0x03#5 ∧
    exec .rderr s = .next { s with rsp := some (.ok (.status s.errcnt s.cmderr s.errcode)) }) ∧
  (∀ c : Config, ∃ t, exec .rderr (State.resetOf c) = .next t ∧ t.rsp = some (.ok (.status 0 false 0#3))) ∧
  (∀ (c : Config) (w k : Nat), c.errw = some w → saturate c k = 2 ^ w - 1 → 2 ^ w - 1 ≤ k)

/-- R13. The counter: saturating, 0 only when nothing was counted, and who writes it. -/
def Obligations.CounterSaturatesAndHasFourWriters : Prop :=
  (∀ (c : Config) (k : Nat), c.errw = none → saturate c k = k) ∧
  (∀ (c : Config) (k w : Nat), c.errw = some w → saturate c k = min k (2 ^ w - 1)) ∧
  (∀ (c : Config) (k : Nat), saturate c k = 0 ↔ k = 0) ∧
  (∀ (s : State), s.cwv = true → ∃ t, exec .syne s = .next t ∧
    t.errcnt = saturate s.cfg (s.errcnt + (if s.cfg.n < syndrome s.cfg s.cw then 1 else 0))) ∧
  (∀ (s : State) (v : Bits), v.length = s.cfg.n → ∃ t, exec (.decb v) s = .next t ∧
    t.errcnt = saturate s.cfg (s.errcnt + (if s.cfg.n < syndrome s.cfg v then 1 else 0))) ∧
  (∀ (s : State) (e : Bits), WithinSeqmax s.cfg e.length → ∃ t, exec (.decs e) s = .next t ∧
    t.errcnt = saturate s.cfg ((segment e s.cfg.n).countP fun w => decide (s.cfg.n < syndrome s.cfg w)) ∧
    ∃ y, t.rsp = some (.ok (.message y t.errcnt))) ∧
  (∀ (s : State), ∃ t cmderr errcode, exec .rderr s = .next t ∧ t.rsp = some (.ok (.status s.errcnt cmderr errcode))) ∧
  (∀ (s : State), ∃ t, exec .clrerr s = .next t ∧ t.errcnt = 0) ∧
  (∀ (i : Instr) (s t : State), writesErrcnt i = false → exec i s = .next t → t.errcnt = s.errcnt)

/-! ## Sequences and bit conversion -/

/-- R34. The three length adjustments. -/
def Obligations.PaddingSegmentingAndTruncating : Prop :=
  (∀ (b : Bits) (m : Nat), 1 ≤ m → ∃ k, k < m ∧ padTo b m = b ++ List.replicate k false ∧
    (padTo b m).length % m = 0 ∧ (b.length % m = 0 → k = 0)) ∧
  (∀ (b : Bits) (n : Nat), 1 ≤ n →
    (segment b n).length = b.length / n ∧
    (∀ k, k < b.length / n → (segment b n)[k]? = some ((b.drop (k * n)).take n)) ∧
    (∀ w ∈ segment b n, w.length = n) ∧
    (segment b n).flatten = b.take (b.length - b.length % n)) ∧
  (∀ b : Bits, wholeBytes b = b.take (b.length - b.length % 8) ∧ (wholeBytes b).length = 8 * (b.length / 8))

/-- R70. SER8: eight bits a byte, most significant first. -/
def Obligations.Ser8SerialisesMostSignificantBitFirst : Prop :=
  (∀ y : List Byte, (bytesToBits y).length = 8 * y.length ∧
    ∀ (t u : Nat) (x : Byte), y[t]? = some x → u ≤ 7 → (bytesToBits y)[8 * t + u]? = some (x.getLsbD (7 - u))) ∧
  (∀ (s : State) (y : List Byte),
    opOf (.ser8 y) = 0x04#5 ∧
    (WithinSeqmax s.cfg (8 * y.length) → exec (.ser8 y) s = .next { s with rsp := some (.ok (.bits (bytesToBits y))) }) ∧
    (¬WithinSeqmax s.cfg (8 * y.length) → exec (.ser8 y) s = .next (refuse .len s)))

/-- R71. `bitsToBytes` gives the weighted sum of each eight bits and is the inverse of `bytesToBits`. -/
def Obligations.BitsToBytesInvertsBytesToBits : Prop :=
  (∀ y : List Byte, bitsToBytes (bytesToBits y) = y) ∧
  (∀ b : Bits, b.length % 8 = 0 → bytesToBits (bitsToBytes b) = b) ∧
  (∀ b : Bits, b.length % 8 = 0 → (bitsToBytes b).length = b.length / 8 ∧
    ∀ t, t < b.length / 8 → ∃ x : Byte, (bitsToBytes b)[t]? = some x ∧
      x.toNat = ∑ u ∈ Finset.range 8, (b.getD (8 * t + u) false).toNat * 2 ^ (7 - u))

/-- R72. DES8: whole bytes only. -/
def Obligations.Des8DeserialisesWholeBytes : Prop :=
  ∀ (s : State) (b : Bits),
    opOf (.des8 b) = 0x05#5 ∧
    (b.length % 8 ≠ 0 → exec (.des8 b) s = .next (refuse .len s)) ∧
    (b.length % 8 = 0 → WithinSeqmax s.cfg b.length →
      exec (.des8 b) s = .next { s with rsp := some (.ok (.bytes (bitsToBytes b))) })

/-! ## The layout -/

/-- R80. `parityCount(m)` is the least `s` with `2^s >= s + m + 1`, equals the closed form, and has the source's two values. -/
def Obligations.ParityCountIsTheLeastAndTheClosedForm : Prop :=
  (∀ m : Nat, 1 ≤ m →
    parityCount m + m + 1 ≤ 2 ^ parityCount m ∧
    (∀ s, s < parityCount m → 2 ^ s < s + m + 1) ∧
    (parityCount m : ℤ) = ⌈Real.logb 2 (Real.logb 2 ((m : ℝ) + 1) + (m : ℝ) + 1)⌉) ∧
  parityCount 8 = 4 ∧ parityCount 43 = 6

/-- R81. The bounds (a) to (d), and what they give. -/
def Obligations.LayoutBoundsHold : Prop :=
  ∀ c : Config,
    2 ≤ c.s ∧ c.n ≤ 2 ^ c.s - 1 ∧ 2 ^ (c.s - 1) < c.n ∧
    (∀ j, j < c.s → 2 ^ j - 1 ≤ c.mode + j) ∧
    (∀ j, j < c.s → 2 ^ j ≤ c.n) ∧ isParityPos c.n = false ∧
    (∀ p ∈ positions c.n, p < 2 ^ c.s) ∧
    (∀ y, y ≠ 0 → y < 2 ^ c.s → y ∈ positions c.n ∨ c.n < y)

/-- R82. A parity position is a power of two; parity slot `j` is position `2^j`; every other position is a data slot. -/
def Obligations.ParitySlotsAreThePowersOfTwo : Prop :=
  (∀ p : Nat, isParityPos p = true ↔ ∃ j, p = 2 ^ j) ∧
  (∀ c : Config,
    (positions c.n).filter isParityPos = (List.range c.s).map (2 ^ ·) ∧
    ((positions c.n).filter fun p => !isParityPos p).length = c.mode)

/-- R83. `dataPos(i)` is the `i`-th position that is no power of two; its closed form, its inverse, its values, `dataPos(MODE) = N`. -/
def Obligations.DataPositionsInOrder : Prop :=
  (∀ k, 1 ≤ k → ((positions (dataPos k)).filter fun p => !isParityPos p) = (List.range' 1 k).map dataPos) ∧
  (∀ i, 1 ≤ i → ∃ t, dataPos i = i + t ∧ i + t < 2 ^ t ∧ (∀ t', t' < t → 2 ^ t' ≤ i + t') ∧ dataIndex (dataPos i) = i) ∧
  (∀ p, 1 ≤ p → isParityPos p = false → dataIndex p = p - Nat.log2 p - 1 ∧ 1 ≤ dataIndex p ∧ dataPos (dataIndex p) = p) ∧
  (List.range' 1 12).map dataPos = [3, 5, 6, 7, 9, 10, 11, 12, 13, 14, 15, 17] ∧
  ∀ c : Config, dataPos c.mode = c.n

/-- R84. The skeleton: the insertion loop, the closed form, and the length agree. -/
def Obligations.SkeletonLoopIsTheClosedForm : Prop :=
  ∀ (c : Config) (d : Bits), d.length = c.mode →
    (buildSkeleton c d).length = c.n ∧
    buildSkeletonLoop c d = buildSkeleton c d ∧
    (∀ j, j < c.s → bitAt (buildSkeleton c d) (2 ^ j) = false) ∧
    (∀ i, 1 ≤ i → i ≤ c.mode → bitAt (buildSkeleton c d) (dataPos i) = d.getD (i - 1) false)

/-- R85. Stripping the parity: the deletion loop and the closed form agree, and the parity slots do not matter. -/
def Obligations.StripLoopIsTheClosedForm : Prop :=
  ∀ (c : Config) (v : Bits), v.length = c.n →
    (stripParity c v).length = c.mode ∧
    stripParityLoop c v = stripParity c v ∧
    (∀ i, 1 ≤ i → i ≤ c.mode → (stripParity c v).getD (i - 1) false = bitAt v (dataPos i)) ∧
    (∀ v' : Bits, v'.length = c.n → (∀ p ∈ positions c.n, isParityPos p = false → bitAt v' p = bitAt v p) →
      stripParity c v' = stripParity c v)

/-- R88. The inverse law, both ways, and as operations. -/
def Obligations.LayoutInverseLaw : Prop :=
  (∀ (c : Config) (d : Bits), d.length = c.mode → stripParity c (buildSkeleton c d) = d) ∧
  (∀ (c : Config) (v : Bits), v.length = c.n →
    buildSkeleton c (stripParity c v) = (positions c.n).map fun p => if isParityPos p then false else bitAt v p) ∧
  (∀ (s : State) (d : Bits), d.length = s.cfg.mode →
    ∃ t u, exec (.ilv d) s = .next t ∧ exec .dlv t = .next u ∧ u.rsp = some (.ok (.block d)))

/-- R86. ILV: its code, its effect, its refusal, its corner cases. -/
def Obligations.IlvBuildsTheSkeleton : Prop :=
  (∀ (s : State) (d : Bits),
    opOf (.ilv d) = 0x06#5 ∧
    (d.length = s.cfg.mode →
      exec (.ilv d) s = .next { s with cw := buildSkeleton s.cfg d, cwv := true, rsp := some (.ok .done) }) ∧
    (d.length ≠ s.cfg.mode → exec (.ilv d) s = .next (refuse .len s))) ∧
  (∀ c : Config,
    (∀ (d : Bits) (j : Nat), d.length = c.mode → j < c.s → bitAt (buildSkeleton c d) (2 ^ j) = false) ∧
    buildSkeleton c (List.replicate c.mode false) = List.replicate c.n false ∧
    buildSkeleton c (List.replicate c.mode true) = (positions c.n).map fun p => !isParityPos p)

/-- R87. DLV: its code, its result (the parity slots do not matter), its refusal. -/
def Obligations.DlvReadsTheDataSlots : Prop :=
  (∀ s : State,
    opOf .dlv = 0x07#5 ∧
    (s.cwv = true → exec .dlv s = .next { s with rsp := some (.ok (.block (stripParity s.cfg s.cw))) }) ∧
    (s.cwv = false → exec .dlv s = .next (refuse .noVal s))) ∧
  (∀ (c : Config) (v : Bits), stripParity c (writeParity c v) = stripParity c v)

/-! ## The syndrome engine -/

/-- R95. The coverage sets: the double loop, the closed form, the consequences and the size. -/
def Obligations.CoverageSets : Prop :=
  (∀ (c : Config) (i : Nat), i < c.s →
    (∀ q, q ∈ cover c i ↔ ∃ k j, j < 2 ^ i ∧ q = 2 ^ i + k * 2 ^ (i + 1) + j ∧ q ≤ c.n) ∧
    (∀ q, q ∈ cover c i ↔ (1 ≤ q ∧ q ≤ c.n) ∧ q.testBit i = true) ∧
    (cover c i).Nodup ∧
    (∀ k, 2 ^ i ∈ cover c k ↔ k = i) ∧
    (cover c i).length = c.n / 2 ^ (i + 1) * 2 ^ i + (c.n % 2 ^ (i + 1) + 1 - 2 ^ i) ∧
    cover c i ≠ []) ∧
  (∀ (c : Config) (q : Nat), q ∈ positions c.n → isParityPos q = false →
    ∃ i k, i < c.s ∧ k < c.s ∧ i ≠ k ∧ q ∈ cover c i ∧ q ∈ cover c k) ∧
  (∀ c : Config, c.n = 12 →
    (List.range 4).map (cover c) =
      [[1, 3, 5, 7, 9, 11], [2, 3, 6, 7, 10, 11], [4, 5, 6, 7, 12], [8, 9, 10, 11, 12]])

/-- R97. The syndrome: digit `i` is `sind(c, i)`, the value is below `2^S`, and it is the xor of the positions of the set bits. -/
def Obligations.SyndromeIsTheXorOfSetPositions : Prop :=
  ∀ (c : Config) (v : Bits),
    syndrome c v ≤ 2 ^ c.s - 1 ∧
    (∀ i, i < c.s → (syndrome c v).testBit i = sind c v i) ∧
    syndrome c v = xorOfSetPositions c v ∧
    syndrome c (List.replicate c.n false) = 0

/-- R98. Valid codewords and linearity. -/
def Obligations.SyndromeIsLinear : Prop :=
  (∀ (c : Config) (v : Bits), v.length = c.n →
    (syndrome c v = 0 ↔ ∀ i, i < c.s → bitAt v (2 ^ i) = xorAt v ((cover c i).filter (· ≠ 2 ^ i)))) ∧
  (∀ c : Config, ValidCodeword c (List.replicate c.n false)) ∧
  (∀ (c : Config) (a b : Bits), a.length = c.n → b.length = c.n →
    syndrome c (xorBits a b) = syndrome c a ^^^ syndrome c b) ∧
  (∀ (c : Config) (q : Nat), 1 ≤ q → q ≤ c.n → syndrome c (flipPositions (List.replicate c.n false) [q]) = q) ∧
  (∀ (c : Config) (v : Bits) (E : List Nat), ValidCodeword c v → ErrorPattern c E →
    syndrome c (flipPositions v E) = xorOf E)

/-- R99. Write mode: the loop and the closed form agree, what it writes, and that it is an involution. -/
def Obligations.WriteParityLoopIsTheClosedForm : Prop :=
  (∀ (c : Config) (v : Bits), v.length = c.n →
    (writeParity c v).length = c.n ∧
    writeParityLoop c v = writeParity c v ∧
    (∀ i, i < c.s → bitAt (writeParity c v) (2 ^ i) = sind c v i ∧
      sind c v i = (bitAt v (2 ^ i) ^^ xorAt v ((cover c i).filter (· ≠ 2 ^ i)))) ∧
    (∀ q ∈ positions c.n, isParityPos q = false → bitAt (writeParity c v) q = bitAt v q) ∧
    syndrome c (writeParity c v) = ∑ i ∈ Finset.range c.s, 2 ^ i * (bitAt v (2 ^ i)).toNat ∧
    (syndrome c (writeParity c v) = 0 ↔ ∀ i, i < c.s → bitAt v (2 ^ i) = false) ∧
    writeParity c (writeParity c v) = v) ∧
  (∀ (c : Config) (d : Bits), d.length = c.mode →
    syndrome c (writeParity c (buildSkeleton c d)) = 0 ∧
    writeParity c (writeParity c (buildSkeleton c d)) = buildSkeleton c d)

/-- R100. The encoder's parity equations, in general and written out for `MODE = 8`. -/
def Obligations.EncoderParityEquations : Prop :=
  (∀ (c : Config) (d : Bits) (i : Nat), d.length = c.mode → i < c.s →
    bitAt (encodeBlock c d) (2 ^ i) = xorAt (buildSkeleton c d) ((cover c i).filter fun q => !isParityPos q)) ∧
  (∀ (c : Config) (d0 d1 d2 d3 d4 d5 d6 d7 : Bit), c.mode = 8 →
    encodeBlock c [d0, d1, d2, d3, d4, d5, d6, d7] =
      [d0 ^^ d1 ^^ d3 ^^ d4 ^^ d6, d0 ^^ d2 ^^ d3 ^^ d5 ^^ d6, d0, d1 ^^ d2 ^^ d3 ^^ d7, d1, d2, d3,
        d4 ^^ d5 ^^ d6 ^^ d7, d4, d5, d6, d7])

/-- R101. Evaluate mode: the three cases, and that a correction leaves a valid codeword. -/
def Obligations.CorrectHasThreeCases : Prop :=
  ∀ (c : Config) (v : Bits), v.length = c.n →
    (correct c v).synd = syndrome c v ∧
    (syndrome c v = 0 → correct c v = ⟨v, 0, false⟩) ∧
    (1 ≤ syndrome c v → syndrome c v ≤ c.n →
      correct c v = ⟨flipPositions v [syndrome c v], syndrome c v, false⟩ ∧ ValidCodeword c (correct c v).cw) ∧
    (c.n < syndrome c v → syndrome c v ≤ 2 ^ c.s - 1 ∧ correct c v = ⟨v, syndrome c v, true⟩) ∧
    hamming v (correct c v).cw ≤ 1

/-- R59. The syndrome value space: which values name no position, and that none is uncorrectable when `N = 2^S - 1`. -/
def Obligations.SyndromeValueSpace : Prop :=
  (∀ (c : Config) (v : Bits), (correct c v).unc = decide (c.n < syndrome c v)) ∧
  (∀ c : Config, ((List.range (2 ^ c.s)).filter fun y => decide (c.n < y)).length = 2 ^ c.s - 1 - c.n) ∧
  (∀ (c : Config) (v : Bits), c.n = 2 ^ c.s - 1 → (correct c v).unc = false) ∧
  (∀ c : Config, c.mode ∈ [1, 4, 11, 26, 57, 120, 247] → c.n = 2 ^ c.s - 1) ∧
  (∀ c : Config, c.mode = 8 → ((List.range (2 ^ c.s)).filter fun y => decide (c.n < y)) = [13, 14, 15]) ∧
  (∀ c : Config, c.mode = 43 → ((List.range (2 ^ c.s)).filter fun y => decide (c.n < y)) = List.range' 50 14)

/-- R102. SYN: its code, its result, its refusal, its corner cases. -/
def Obligations.SynComputesTheSyndrome : Prop :=
  (∀ s : State,
    opOf .syn = 0x08#5 ∧
    (s.cwv = true → exec .syn s = .next { s with rsp := some (.ok (.syndrome (syndrome s.cfg s.cw))) }) ∧
    (s.cwv = false → exec .syn s = .next (refuse .noVal s))) ∧
  (∀ (c : Config) (d : Bits) (i : Nat), d.length = c.mode → i < c.s →
    (syndrome c (buildSkeleton c d)).testBit i = bitAt (encodeBlock c d) (2 ^ i)) ∧
  (∀ (s : State), s.cwv = true → ValidCodeword s.cfg s.cw →
    ∃ t, exec .syn s = .next t ∧ t.rsp = some (.ok (.syndrome 0))) ∧
  (∃ (c : Config) (v : Bits), v.length = c.n ∧ c.n < syndrome c v)

/-- R103. SYNW: its code, its effect (parity slots only, the counter untouched), its refusal, its corner cases. -/
def Obligations.SynwFillsTheParitySlots : Prop :=
  (∀ s : State,
    opOf .synw = 0x09#5 ∧
    (s.cwv = true → exec .synw s = .next { s with cw := writeParity s.cfg s.cw, rsp := some (.ok .done) }) ∧
    (s.cwv = false → exec .synw s = .next (refuse .noVal s))) ∧
  (∀ (c : Config) (v : Bits) (q : Nat), v.length = c.n → q ∈ positions c.n → isParityPos q = false →
    bitAt (writeParity c v) q = bitAt v q) ∧
  (∀ c : Config, writeParity c (List.replicate c.n false) = List.replicate c.n false) ∧
  (∀ (s : State) (d : Bits), d.length = s.cfg.mode → ∃ t u w,
    exec (.ilv d) s = .next t ∧ exec .synw t = .next u ∧ exec .syn u = .next w ∧ w.rsp = some (.ok (.syndrome 0)))

/-- R104 and R188. SYNE: its code, its effect, its refusal, and what a second SYNE does. -/
def Obligations.SyneCorrectsAndCounts : Prop :=
  (∀ s : State,
    opOf .syne = 0x0A#5 ∧
    (s.cwv = true → exec .syne s = .next { s with
      cw := (correct s.cfg s.cw).cw
      errcnt := saturate s.cfg (s.errcnt + (correct s.cfg s.cw).unc.toNat)
      rsp := some (.ok (.evaluation (syndrome s.cfg s.cw) (correct s.cfg s.cw).unc)) }) ∧
    (s.cwv = false → exec .syne s = .next (refuse .noVal s))) ∧
  (∀ s : State, s.cwv = true → ValidCodeword s.cfg s.cw →
    ∃ t, exec .syne s = .next t ∧ t.cw = s.cw ∧ t.errcnt = saturate s.cfg s.errcnt ∧ t.rsp = some (.ok (.evaluation 0 false))) ∧
  (∀ (s : State) (q : Nat) (v : Bits), s.cwv = true → ValidCodeword s.cfg v → 1 ≤ q → q ≤ s.cfg.n →
    s.cw = flipPositions v [q] → ∃ t, exec .syne s = .next t ∧ t.cw = v ∧ t.rsp = some (.ok (.evaluation q false))) ∧
  (∀ s : State, s.cwv = true → s.cw.length = s.cfg.n → ∃ t u, exec .syne s = .next t ∧ exec .syne t = .next u ∧
    (syndrome s.cfg s.cw ≤ s.cfg.n → u.rsp = some (.ok (.evaluation 0 false)) ∧
      u.errcnt = saturate s.cfg (saturate s.cfg s.errcnt)) ∧
    (s.cfg.n < syndrome s.cfg s.cw → t.cw = s.cw ∧ u.rsp = t.rsp ∧ t.errcnt = saturate s.cfg (s.errcnt + 1) ∧
      u.errcnt = saturate s.cfg (t.errcnt + 1)))

/-- R105. One flipped bit of a valid codeword is corrected exactly; on an invalid one the syndrome is `z xor q`. -/
def Obligations.SingleErrorIsCorrected : Prop :=
  (∀ (c : Config) (v : Bits) (q : Nat), ValidCodeword c v → 1 ≤ q → q ≤ c.n →
    correct c (flipPositions v [q]) = ⟨v, q, false⟩) ∧
  (∀ (c : Config) (v : Bits) (q : Nat), v.length = c.n → 1 ≤ q → q ≤ c.n →
    (correct c (flipPositions v [q])).synd = syndrome c v ^^^ q)

/-- R106. Two or more flipped bits of a valid codeword: (a) two, (b) three or more, (c) a full-length code. -/
def Obligations.MultipleErrorsAreMiscorrectedOrReported : Prop :=
  (∀ (c : Config) (v : Bits) (E : List Nat), ValidCodeword c v → ErrorPattern c E → 2 ≤ E.length →
    (correct c (flipPositions v E)).synd = xorOf E) ∧
  (∀ (c : Config) (v : Bits) (a b : Nat), ValidCodeword c v → ErrorPattern c [a, b] →
    a ^^^ b ≠ 0 ∧
    (a ^^^ b ≤ c.n → a ^^^ b ≠ a ∧ a ^^^ b ≠ b ∧
      correct c (flipPositions v [a, b]) = ⟨flipPositions v [a, b, a ^^^ b], a ^^^ b, false⟩ ∧
      ValidCodeword c (flipPositions v [a, b, a ^^^ b]) ∧ flipPositions v [a, b, a ^^^ b] ≠ v) ∧
    (c.n < a ^^^ b → correct c (flipPositions v [a, b]) = ⟨flipPositions v [a, b], a ^^^ b, true⟩)) ∧
  (∀ (c : Config) (v : Bits), ValidCodeword c v →
    correct c (flipPositions v [1, 2, 3]) = ⟨flipPositions v [1, 2, 3], 0, false⟩) ∧
  (∀ (c : Config) (v : Bits), c.n = 2 ^ c.s - 1 → (correct c v).unc = false)

/-! ## The codec -/

/-- R107 and R120. Encoder output is valid and left alone by `correct`; encoding is injective and linear. -/
def Obligations.EncoderOutputIsValidAndLinear : Prop :=
  (∀ (c : Config) (d : Bits), d.length = c.mode →
    ValidCodeword c (encodeBlock c d) ∧ correct c (encodeBlock c d) = ⟨encodeBlock c d, 0, false⟩) ∧
  (∀ (c : Config) (a b : Bits), a.length = c.mode → b.length = c.mode →
    encodeBlock c (xorBits a b) = xorBits (encodeBlock c a) (encodeBlock c b) ∧
    (encodeBlock c a = encodeBlock c b → a = b)) ∧
  (∀ c : Config, encodeBlock c (List.replicate c.mode false) = List.replicate c.n false)

/-- R121. ENCB: its code, its effect, its refusal, and that it equals `ILV d ; SYNW ; RDCW`. -/
def Obligations.EncbEncodesOneBlock : Prop :=
  ∀ (s : State) (d : Bits),
    opOf (.encb d) = 0x0B#5 ∧
    (d.length = s.cfg.mode →
      exec (.encb d) s = .next { s with
        cw := encodeBlock s.cfg d, cwv := true, rsp := some (.ok (.codeword (encodeBlock s.cfg d))) } ∧
      (∀ p ∈ positions s.cfg.n, isParityPos p = false → bitAt (encodeBlock s.cfg d) p = bitAt (buildSkeleton s.cfg d) p) ∧
      ∃ t u, exec (.ilv d) s = .next t ∧ exec .synw t = .next u ∧ exec .rdcw u = exec (.encb d) s) ∧
    (d.length ≠ s.cfg.mode → exec (.encb d) s = .next (refuse .len s))

/-- R123. DECB: its code, its effect, its refusal, that it equals `LDCW v ; SYNE ; DLV`, and that one flipped bit anywhere is
corrected; two give wrong data silently, or the received data bits with `unc = 1`. -/
def Obligations.DecbDecodesOneCodeword : Prop :=
  (∀ (s : State) (v : Bits),
    opOf (.decb v) = 0x0C#5 ∧
    (v.length = s.cfg.n →
      exec (.decb v) s = .next { s with
        cw := (correct s.cfg v).cw, cwv := true, errcnt := saturate s.cfg (s.errcnt + (correct s.cfg v).unc.toNat)
        rsp := some (.ok (.decoded (stripParity s.cfg (correct s.cfg v).cw) (syndrome s.cfg v) (correct s.cfg v).unc)) } ∧
      ∃ t u w, exec (.ldcw v) s = .next t ∧ exec .syne t = .next u ∧ exec .dlv u = .next w ∧
        u.rsp = some (.ok (.evaluation (syndrome s.cfg v) (correct s.cfg v).unc)) ∧
        w.rsp = some (.ok (.block (stripParity s.cfg (correct s.cfg v).cw))) ∧
        exec (.decb v) s = .next { w with
          rsp := some (.ok (.decoded (stripParity s.cfg (correct s.cfg v).cw) (syndrome s.cfg v) (correct s.cfg v).unc)) }) ∧
    (v.length ≠ s.cfg.n → exec (.decb v) s = .next (refuse .len s))) ∧
  (∀ (s : State) (d : Bits), d.length = s.cfg.mode →
    (∃ t, exec (.decb (encodeBlock s.cfg d)) s = .next t ∧ t.rsp = some (.ok (.decoded d 0 false))) ∧
    (∀ q, 1 ≤ q → q ≤ s.cfg.n →
      ∃ t, exec (.decb (flipPositions (encodeBlock s.cfg d) [q])) s = .next t ∧ t.rsp = some (.ok (.decoded d q false))) ∧
    (∀ a b, ErrorPattern s.cfg [a, b] → ∃ t d', exec (.decb (flipPositions (encodeBlock s.cfg d) [a, b])) s = .next t ∧
      t.rsp = some (.ok (.decoded d' (a ^^^ b) (decide (s.cfg.n < a ^^^ b)))) ∧
      (a ^^^ b ≤ s.cfg.n → t.cw = flipPositions (encodeBlock s.cfg d) [a, b, a ^^^ b] ∧
        d' = stripParity s.cfg (flipPositions (encodeBlock s.cfg d) [a, b, a ^^^ b]) ∧ d' ≠ d) ∧
      (s.cfg.n < a ^^^ b → d' = stripParity s.cfg (flipPositions (encodeBlock s.cfg d) [a, b]))))

/-- R124. ENCS: its code, its result block by block, its effect, its refusal. -/
def Obligations.EncsEncodesTheStream : Prop :=
  ∀ (s : State) (b : Bits) (K : Nat), K = (b.length + s.cfg.mode - 1) / s.cfg.mode →
    opOf (.encs b) = 0x0D#5 ∧
    padTo b s.cfg.mode = b ++ List.replicate (K * s.cfg.mode - b.length) false ∧ K * s.cfg.mode - b.length < s.cfg.mode ∧
    (WithinSeqmax s.cfg b.length → WithinSeqmax s.cfg (K * s.cfg.n) → ∃ t, exec (.encs b) s = .next t ∧
      ∃ out : Bits, t = { s with cw := t.cw, stamp := t.stamp, cwv := false, rsp := some (.ok (.bits out)) } ∧
        out.length = K * s.cfg.n ∧
        ∀ k, k < K → (out.drop (k * s.cfg.n)).take s.cfg.n =
          encodeBlock s.cfg (((padTo b s.cfg.mode).drop (k * s.cfg.mode)).take s.cfg.mode)) ∧
    (¬(WithinSeqmax s.cfg b.length ∧ WithinSeqmax s.cfg (K * s.cfg.n)) → exec (.encs b) s = .next (refuse .len s))

/-- R126. DECS: its code, its result, its effect (the counter is set, not added to), its refusal, its corner cases. -/
def Obligations.DecsDecodesTheStream : Prop :=
  ∀ (s : State) (e : Bits) (K : Nat) (w : Nat → Bits) (data : Bits) (u : Nat),
    K = e.length / s.cfg.n → (w = fun k => (e.drop (k * s.cfg.n)).take s.cfg.n) →
    data = ((List.range K).map fun k => (decodeCodeword s.cfg (w k)).data).flatten →
    u = ∑ k ∈ Finset.range K, (decodeCodeword s.cfg (w k)).unc.toNat →
    opOf (.decs e) = 0x0E#5 ∧
    (WithinSeqmax s.cfg e.length → ∃ t, exec (.decs e) s = .next t ∧
      t = { s with cw := t.cw, stamp := t.stamp, cwv := false, errcnt := saturate s.cfg u,
                   rsp := some (.ok (.message (bitsToBytes (wholeBytes data)) (saturate s.cfg u))) }) ∧
    (¬WithinSeqmax s.cfg e.length → exec (.decs e) s = .next (refuse .len s)) ∧
    data.length = K * s.cfg.mode ∧ (bitsToBytes (wholeBytes data)).length = K * s.cfg.mode / 8 ∧
    (e.length < s.cfg.n → data = [] ∧ u = 0)

/-- R128. The round trip through SER8, ENCS and DECS. -/
def Obligations.StreamRoundTrip : Prop :=
  (∀ (s : State) (y : List Byte) (K : Nat), s.cfg.seqmax = none → K = (8 * y.length + s.cfg.mode - 1) / s.cfg.mode →
    ∃ b e t u w, exec (.ser8 y) s = .next t ∧ t.rsp = some (.ok (.bits b)) ∧
      exec (.encs b) t = .next u ∧ u.rsp = some (.ok (.bits e)) ∧
      exec (.decs e) u = .next w ∧
      w.rsp = some (.ok (.message (y ++ List.replicate ((K * s.cfg.mode - 8 * y.length) / 8) 0#8) 0))) ∧
  (∀ (c : Config) (b : Bits), decodedBits c (encodeStream c b) = padTo b c.mode)

/-- R129 and R144. One flipped bit in each codeword of an encoded stream is corrected; NOISE1 changes each codeword by exactly 1. -/
def Obligations.StreamWithOneErrorPerCodeword : Prop :=
  (∀ (c : Config) (b e' : Bits),
    e'.length = (encodeStream c b).length →
    List.Forall₂ (fun w w' => w' = w ∨ ∃ r, r < c.n ∧ w' = flipAt w r) (segment (encodeStream c b) c.n) (segment e' c.n) →
    decodeStream c e' = decodeStream c (encodeStream c b) ∧ uncorrectable c e' = 0) ∧
  (∀ (c : Config) (b : Bits) (draws : List Nat), b.length / c.n ≤ draws.length →
    (∀ r ∈ draws.take (b.length / c.n), r < c.n) →
    ∀ k, k < b.length / c.n →
      hamming ((b.drop (k * c.n)).take c.n) (((noiseOne c b draws).drop (k * c.n)).take c.n) = 1 ∧
      ∀ i, i < c.n → (((noiseOne c b draws)[k * c.n + i]? ≠ b[k * c.n + i]?) ↔ draws[k]? = some i)) ∧
  (∀ (c : Config) (b : Bits) (draws : List Nat), (encodeStream c b).length / c.n ≤ draws.length →
    (∀ r ∈ draws.take ((encodeStream c b).length / c.n), r < c.n) →
    decodeStream c (noiseOne c (encodeStream c b) draws) = decodeStream c (encodeStream c b) ∧
    uncorrectable c (noiseOne c (encodeStream c b) draws) = 0)

/-- R41 and R147. Codewords are independent: the four stream functions work codeword by codeword, each with its own draws, and the
saturating sum has no order. -/
def Obligations.CodewordsAreIndependent : Prop :=
  (∀ (c : Config) (a b : Bits), a.length % c.mode = 0 → encodeStream c (a ++ b) = encodeStream c a ++ encodeStream c b) ∧
  (∀ (c : Config) (a b : Bits), a.length % c.n = 0 →
    decodedBits c (a ++ b) = decodedBits c a ++ decodedBits c b ∧
    uncorrectable c (a ++ b) = uncorrectable c a + uncorrectable c b ∧
    (∀ r r' : List Nat, r.length = a.length / c.n → noiseOne c (a ++ b) (r ++ r') = noiseOne c a r ++ noiseOne c b r') ∧
    ∀ r r' : List Nat, r.length = 4 * (a.length / c.n) →
      noiseFour c (a ++ b) (r ++ r') = noiseFour c a r ++ noiseFour c b r') ∧
  (∀ (c : Config) (a b : Nat), saturate c (saturate c a + b) = saturate c (a + b))

/-- R44 and R45. The lengths of the stream operations and of a round trip. -/
def Obligations.StreamLengths : Prop :=
  (∀ y : List Byte, (bytesToBits y).length = 8 * y.length) ∧
  (∀ b : Bits, b.length % 8 = 0 → (bitsToBytes b).length = b.length / 8) ∧
  (∀ (c : Config) (b : Bits), (encodeStream c b).length = (b.length + c.mode - 1) / c.mode * c.n) ∧
  (∀ (c : Config) (e : Bits), (decodeStream c e).length = e.length / c.n * c.mode / 8) ∧
  (∀ (c : Config) (b : Bits) (draws : List Nat), b.length / c.n ≤ draws.length →
    (noiseOne c b draws).length = b.length / c.n * c.n) ∧
  (∀ (c : Config) (b : Bits) (draws : List Nat), 4 * (b.length / c.n) ≤ draws.length →
    (noiseFour c b draws).length = b.length / c.n * c.n) ∧
  (∀ (c : Config) (y : List Byte) (K : Nat), K = (8 * y.length + c.mode - 1) / c.mode →
    (encodeStream c (bytesToBits y)).length = K * c.n ∧
    (decodeStream c (encodeStream c (bytesToBits y))).length = K * c.mode / 8 ∧
    K * c.mode / 8 = y.length + (K * c.mode - 8 * y.length) / 8 ∧
    (K * c.mode - 8 * y.length) / 8 ≤ (c.mode - 1) / 8 ∧
    (decodeStream c (encodeStream c (bytesToBits y))).take y.length = y ∧
    (decodeStream c (encodeStream c (bytesToBits y))).drop y.length =
      List.replicate ((K * c.mode - 8 * y.length) / 8) 0#8)

/-! ## Noise -/

/-- R141. `flipAt` complements exactly one bit, is an involution, and is the xor with a single 1. -/
def Obligations.FlipAtChangesOneBit : Prop :=
  ∀ (v : Bits) (r : Nat), r < v.length →
    (flipAt v r).length = v.length ∧
    (∀ i b, v[i]? = some b → (flipAt v r)[i]? = some (if i = r then !b else b)) ∧
    hamming v (flipAt v r) = 1 ∧
    flipAt (flipAt v r) r = v ∧
    flipAt v r = xorBits v (flipPositions (List.replicate v.length false) [r + 1])

/-- R142. FLIP1: its code, its effect, its refusals in their priority, its corner cases. -/
def Obligations.Flip1FlipsOneBit : Prop :=
  (∀ (s : State) (r : Nat),
    opOf (.flip1 r) = 0x0F#5 ∧
    (s.cfg.n ≤ r → exec (.flip1 r) s = .next (refuse .pos s)) ∧
    (r < s.cfg.n → s.cwv = false → exec (.flip1 r) s = .next (refuse .noVal s)) ∧
    (r < s.cfg.n → s.cwv = true → exec (.flip1 r) s = .next { s with cw := flipAt s.cw r, rsp := some (.ok .done) })) ∧
  (∀ (s : State) (r : Nat), r < s.cfg.n → s.cwv = true → s.cw.length = s.cfg.n →
    ∃ t u, exec (.flip1 r) s = .next t ∧ exec (.flip1 r) t = .next u ∧ hamming s.cw t.cw = 1 ∧ u.cw = s.cw) ∧
  (∀ (s : State) (r : Nat), r < s.cfg.n → s.cwv = true → ValidCodeword s.cfg s.cw →
    ∃ t u w, exec (.flip1 r) s = .next t ∧
      exec .syn t = .next u ∧ u.rsp = some (.ok (.syndrome (r + 1))) ∧
      exec .syne t = .next w ∧ w.rsp = some (.ok (.evaluation (r + 1) false)) ∧ w.cw = s.cw) ∧
  (∀ c : Config, isParityPos (0 + 1) = true ∧ isParityPos (c.n - 1 + 1) = false ∧ c.n < 2 ^ c.s)

/-- R143. NOISE1: its code, its result codeword by codeword, its effect, its refusals in their priority. -/
def Obligations.Noise1FlipsOneBitPerCodeword : Prop :=
  ∀ (s : State) (b : Bits) (draws : List Nat) (K : Nat), K = b.length / s.cfg.n →
    opOf (.noise1 b draws) = 0x10#5 ∧
    (WithinSeqmax s.cfg b.length → K ≤ draws.length → (∀ r ∈ draws.take K, r < s.cfg.n) →
      ∃ t, exec (.noise1 b draws) s = .next t ∧
        t = { s with
          cw := t.cw, stamp := t.stamp, cwv := false
          rsp := some (.ok (.bits
            ((List.range K).map fun k => flipAt ((b.drop (k * s.cfg.n)).take s.cfg.n) (draws.getD k 0)).flatten)) }) ∧
    (WithinSeqmax s.cfg b.length → draws.length < K → exec (.noise1 b draws) s = .next (refuse .len s)) ∧
    (WithinSeqmax s.cfg b.length → K ≤ draws.length → (∃ r ∈ draws.take K, s.cfg.n ≤ r) →
      exec (.noise1 b draws) s = .next (refuse .pos s)) ∧
    (¬WithinSeqmax s.cfg b.length → exec (.noise1 b draws) s = .next (refuse .len s))

/-- R145. NOISE4: its code, its result codeword by codeword (each distinct index once, 1 to 4 bits changed), its effect, its
refusals in their priority. -/
def Obligations.Noise4FlipsUpToFourBitsPerCodeword : Prop :=
  ∀ (s : State) (b : Bits) (draws : List Nat) (K : Nat), K = b.length / s.cfg.n →
    opOf (.noise4 b draws) = 0x11#5 ∧
    (WithinSeqmax s.cfg b.length → 4 * K ≤ draws.length → (∀ r ∈ draws.take (4 * K), r < s.cfg.n) →
      (∃ t, exec (.noise4 b draws) s = .next t ∧
        t = { s with
          cw := t.cw, stamp := t.stamp, cwv := false
          rsp := some (.ok (.bits
            ((List.range K).map fun k =>
              complementAt ((b.drop (k * s.cfg.n)).take s.cfg.n) ((draws.drop (4 * k)).take 4)).flatten)) }) ∧
      ∀ k, k < K →
        hamming ((b.drop (k * s.cfg.n)).take s.cfg.n)
            (complementAt ((b.drop (k * s.cfg.n)).take s.cfg.n) ((draws.drop (4 * k)).take 4)) =
          ((draws.drop (4 * k)).take 4).toFinset.card ∧
        1 ≤ ((draws.drop (4 * k)).take 4).toFinset.card ∧ ((draws.drop (4 * k)).take 4).toFinset.card ≤ 4) ∧
    (∀ (v : Bits) (T : List Nat) (i : Nat) (x : Bit), v[i]? = some x →
      (complementAt v T)[i]? = some (if i ∈ T then !x else x)) ∧
    (WithinSeqmax s.cfg b.length → draws.length < 4 * K → exec (.noise4 b draws) s = .next (refuse .len s)) ∧
    (WithinSeqmax s.cfg b.length → 4 * K ≤ draws.length → (∃ r ∈ draws.take (4 * K), s.cfg.n ≤ r) →
      exec (.noise4 b draws) s = .next (refuse .pos s)) ∧
    (¬WithinSeqmax s.cfg b.length → exec (.noise4 b draws) s = .next (refuse .len s))

/-! ## Refusals, status and the whole machine -/

/-- R165. A refused operation sets `CMDERR` and `ERRCODE`, answers with the code, and changes nothing else; an operation is either
refused so or completes with status ok and leaves `CMDERR` and `ERRCODE` alone; the next operation is accepted as usual. -/
def Obligations.RefusalIsPrecise : Prop :=
  (∀ (e : Cause) (s : State),
    refuse e s = { s with cmderr := true, errcode := e.code, rsp := some (.refused e.code) }) ∧
  (∀ (i : Instr) (s t : State), exec i s = .next t →
    (∃ e, t = refuse e s) ∨ (t.cmderr = s.cmderr ∧ t.errcode = s.errcode ∧ ∃ r, t.rsp = some (.ok r))) ∧
  (∀ (i : Instr) (e : Cause) (s : State), i ≠ .rderr →
    ∃ t u, exec i s = .next t ∧ exec i (refuse e s) = .next u ∧ u.rsp = t.rsp ∧ u.cw = t.cw ∧ u.cwv = t.cwv ∧
      u.errcnt = t.errcnt)

/-- R58, R166 and R167. The codes; when each operation is refused and with which: lengths before positions before the value of `CW`;
else it completes with status ok. A reserved `op` is refused before any operand is looked at. That a DES8 operand above `SEQMAX` is a
length fault is read from R58 (e) and R166, since R72 does not repeat it (DEDUCED, log 10). -/
def Obligations.RefusalCodesCausesAndPriority : Prop :=
  (Cause.op.code = 1#3 ∧ Cause.len.code = 2#3 ∧ Cause.pos.code = 3#3 ∧ Cause.noVal.code = 4#3) ∧
  (∀ c : Config, (State.resetOf c).errcode = 0#3) ∧
  (∀ (i : Instr) (s : State),
    (LengthFault s.cfg i → exec i s = .next (refuse .len s)) ∧
    (¬LengthFault s.cfg i → PositionFault s.cfg i → exec i s = .next (refuse .pos s)) ∧
    (¬LengthFault s.cfg i → ¬PositionFault s.cfg i → readsCw i = true → s.cwv = false →
      exec i s = .next (refuse .noVal s)) ∧
    (¬LengthFault s.cfg i → ¬PositionFault s.cfg i → (readsCw i = true → s.cwv = true) →
      ∃ t r, exec i s = .next t ∧ t.rsp = some (.ok r))) ∧
  (∀ (s : State) (w : CommandWord) (rest : List HostMove), s.inbox = .command w :: rest → 0x12 ≤ w.op.toNat →
    ∃ t, step s = .next t ∧ t.rsp = some (.refused 1#3) ∧ t.errcode = 1#3)

/-- R57. The 14 reserved values of `op` select no operation: the command is refused with `ERR_OP`. -/
def Obligations.ReservedOpIsRefused : Prop :=
  (∀ (s : State) (w : CommandWord) (rest : List HostMove), s.inbox = .command w :: rest → 0x12 ≤ w.op.toNat →
    step s = .next { s with
      inbox := rest, cmderr := true, errcode := 1#3, rsp := some (.refused 1#3) }) ∧
  (∀ (c : Config) (w : CommandWord), (∃ i, decode c w = .ok i) → w.op.toNat < 0x12) ∧
  ((List.range 32).filter fun k => decide (0x12 ≤ (BitVec.ofNat 5 k).toNat)).length = 14

/-- R15. `CMDERR` is sticky: no operation clears it, only reset; a command answered with a refusal sets it and overwrites `ERRCODE`. -/
def Obligations.CmderrIsSticky : Prop :=
  (∀ s t : State, step s = .next t → s.inbox.head? ≠ some .reset →
    (s.cmderr = true → t.cmderr = true) ∧
    ((t.cmderr = s.cmderr ∧ t.errcode = s.errcode) ∨
      (t.cmderr = true ∧ ∃ e : Cause, t.rsp = some (.refused e.code) ∧ t.errcode = e.code))) ∧
  (∀ (s t : State) (w : CommandWord) (rest : List HostMove) (code : BitVec 3), s.inbox = .command w :: rest →
    step s = .next t → t.rsp = some (.refused code) → t.cmderr = true ∧ t.errcode = code) ∧
  (∀ (s : State) (rest : List HostMove), s.inbox = .reset :: rest →
    ∃ t, step s = .next t ∧ t.cmderr = false ∧ t.errcode = 0#3) ∧
  (∀ s : State, ∃ t n, exec .rderr s = .next t ∧ t.rsp = some (.ok (.status n s.cmderr s.errcode)))

/-- R18. Which operation writes what: a refused operation `CMDERR` and `ERRCODE` alone, the others what the table lists. -/
def Obligations.AccessTable : Prop :=
  (∀ (i : Instr) (s t : State) (code : BitVec 3), exec i s = .next t → t.rsp = some (.refused code) →
    t = { s with cmderr := true, errcode := code, rsp := some (.refused code) }) ∧
  ∀ (i : Instr) (s t : State) (r : Result), exec i s = .next t → t.rsp = some (.ok r) →
    (suppliesCw i = false → editsCw i = false → isStream i = false → t.cw = s.cw) ∧
    (suppliesCw i = true → t.cwv = true) ∧
    (isStream i = true → t.cwv = false) ∧
    (suppliesCw i = false → isStream i = false → t.cwv = s.cwv) ∧
    (readsCw i = true → s.cwv = true) ∧
    (writesErrcnt i = false → t.errcnt = s.errcnt) ∧
    t.cmderr = s.cmderr ∧ t.errcode = s.errcode ∧ t.cfg = s.cfg ∧
    (∀ v, i = .ldcw v → t.cw = v) ∧
    (∀ d, i = .ilv d → t.cw = buildSkeleton s.cfg d) ∧
    (∀ d, i = .encb d → t.cw = encodeBlock s.cfg d) ∧
    (∀ v, i = .decb v → t.cw = (correct s.cfg v).cw) ∧
    (i = .clrerr → t.errcnt = 0) ∧
    (∀ e, i = .decs e → t.errcnt = saturate s.cfg (uncorrectable s.cfg e)) ∧
    (s.cw.length = s.cfg.n →
      (i = .synw → t.cw.length = s.cfg.n ∧ ∀ p ∈ positions s.cfg.n, isParityPos p = false → bitAt t.cw p = bitAt s.cw p) ∧
      (i = .syne → t.cw.length = s.cfg.n ∧ hamming s.cw t.cw ≤ 1) ∧
      (∀ k, i = .flip1 k → t.cw.length = s.cfg.n ∧ hamming s.cw t.cw = 1))

/-- R12. Who sets `CWV`, who clears it, and who is refused while it is 0. -/
def Obligations.CwvGuardsEveryReadOfCw : Prop :=
  (∀ c : Config, (State.resetOf c).cwv = false) ∧
  (∀ (i : Instr) (s t : State) (r : Result), exec i s = .next t → t.rsp = some (.ok r) →
    t.cwv = if suppliesCw i then true else if isStream i then false else s.cwv) ∧
  (∀ (i : Instr) (s : State), readsCw i = true → s.cwv = false → (∀ r, i = .flip1 r → r < s.cfg.n) →
    exec i s = .next (refuse .noVal s))

/-- R19 and R180. The reset values and the reset event. What `CW` holds is not said: it has no value. -/
def Obligations.ResetGivesTheResetValues : Prop :=
  (∀ c : Config, (State.resetOf c).cwv = false ∧ (State.resetOf c).errcnt = 0 ∧ (State.resetOf c).cmderr = false ∧
    (State.resetOf c).errcode = 0#3 ∧ (State.resetOf c).cfg = c) ∧
  (∀ (s : State) (rest : List HostMove), s.inbox = .reset :: rest → ∃ t, step s = .next t ∧
    t.cwv = false ∧ t.errcnt = 0 ∧ t.cmderr = false ∧ t.errcode = 0#3 ∧ t.cfg = s.cfg ∧ t.inbox = rest) ∧
  (∀ c : Config, exec .rdcw (State.resetOf c) = .next (refuse .noVal (State.resetOf c)))

/-- R181. An operation that does not read `CW` or the status answers from its operands alone, whatever was executed before. -/
def Obligations.ResultsDependOnOperandsAlone : Prop :=
  ∀ (i : Instr) (s s' : State), s.cfg = s'.cfg → readsCw i = false → i ≠ .rderr →
    ∃ t t', exec i s = .next t ∧ exec i s' = .next t' ∧ t.rsp = t'.rsp

/-- R187. Parity slots must be zero before SYNW: SYNW clears the slots of a valid codeword, SYNW twice gives the skeleton back, and
going through DLV and ILV re-encodes. -/
def Obligations.SynwHazard : Prop :=
  (∀ (s : State) (d : Bits), d.length = s.cfg.mode → ∃ t u w, exec (.ilv d) s = .next t ∧ exec .synw t = .next u ∧
    exec .synw u = .next w ∧ u.cw = encodeBlock s.cfg d ∧ w.cw = t.cw) ∧
  (∀ (s : State) (v : Bits), ValidCodeword s.cfg v → ∃ t u, exec (.ldcw v) s = .next t ∧ exec .synw t = .next u ∧
    (∀ j, j < s.cfg.s → bitAt u.cw (2 ^ j) = false) ∧ u.cw = buildSkeleton s.cfg (stripParity s.cfg v)) ∧
  (∀ (c : Config) (v : Bits), v.length = c.n →
    (syndrome c (writeParity c v) = 0 ↔ ∀ j, j < c.s → bitAt v (2 ^ j) = false)) ∧
  (∀ (s : State) (v : Bits), v.length = s.cfg.n → ∃ t u d w x, exec (.ldcw v) s = .next t ∧ exec .dlv t = .next u ∧
    u.rsp = some (.ok (.block d)) ∧ exec (.ilv d) u = .next w ∧ exec .synw w = .next x ∧ ValidCodeword s.cfg x.cw)

/-- R55. Every command's response: ok with the results of the table in their widths, or refused with a code and no result. -/
def Obligations.ResponsesFollowTheTable : Prop :=
  ∀ (i : Instr) (s t : State), s.Inv → exec i s = .next t →
    (∃ r, t.rsp = some (.ok r) ∧ ResultFits s.cfg i r) ∨ (∃ e : Cause, t.rsp = some (.refused e.code))

/-- R131 and R17. Every operation and every step ends in a next state, and none of them writes the configuration or the host's
moves still to come. -/
def Obligations.EveryOperationEndsAndKeepsTheConfiguration : Prop :=
  (∀ (i : Instr) (s : State), ∃ t, exec i s = .next t ∧ t.cfg = s.cfg ∧ t.inbox = s.inbox) ∧
  (∀ s : State, ∃ t, step s = .next t ∧ t.cfg = s.cfg ∧ t.inbox = s.inbox.tail)

/-! ## Encoding, the step, the invariant -/

/-- R54, R56 and log 6. A step runs the operation that the host's next command carries, after taking the move; with no move pending
the block waits. -/
def Obligations.StepRunsTheDecodedOperation : Prop :=
  (∀ (s : State) (w : CommandWord) (rest : List HostMove) (i : Instr), s.inbox = .command w :: rest →
    decode s.cfg w = .ok i → step s = exec i { s with inbox := rest }) ∧
  (∀ s : State, s.inbox = [] → step s = .next s)

/-- R56. Command words written out by hand decode to the operations they stand for (`MODE = 8`). -/
def Obligations.HandWrittenWordsDecode : Prop :=
  decode Config.worked ⟨0b01111#5, [false, false, true, false]⟩ = .ok (.flip1 4) ∧
  decode Config.worked ⟨0b00110#5, [false, true, false, false, false, false, false, true]⟩ =
    .ok (.ilv [false, true, false, false, false, false, false, true]) ∧
  decode Config.worked ⟨0b01010#5, []⟩ = .ok .syne ∧
  decode Config.worked ⟨0b00101#5, [true, true, true, false, false]⟩ = .ok (.des8 [true, false])

/-- R53, R54 (layout: log 4). Decoding the command of a well-formed operation gives the operation back, whatever follows it. -/
def Obligations.DecodeInvertsEncode : Prop :=
  ∀ (c : Config) (i : Instr) (rest : Bits), WellFormed c i = true →
    decode c ⟨(encode c i).op, (encode c i).operands ++ rest⟩ = .ok i

/-- R53, R54 (layout: log 4). What decodes is well-formed, and its encoding is the command's own op and leading operand bits. -/
def Obligations.DecodedIsWellFormedAndReencodes : Prop :=
  ∀ (c : Config) (w : CommandWord) (i : Instr), decode c w = .ok i →
    WellFormed c i = true ∧ (encode c i).op = w.op ∧ (encode c i).operands <+: w.operands

/-- The invariant (R11, R13, R15, R165, R166) is kept by every step, from every state that has it. -/
def Obligations.StepKeepsInvariant : Prop :=
  ∀ s t : State, s.Inv → step s = .next t → t.Inv

/-- The reset state of every instance has the invariant. -/
def Obligations.ResetHasInvariant : Prop :=
  State.reset.Inv ∧ ∀ c : Config, (State.resetOf c).Inv
end

