-- ==== Sys2Proof/Laws/Decode.lean ====
section
/-! SUPPORT. Fields and sequences of a command: reading gives what was written. -/

namespace Sys2Proof

theorem takeField_append {k : Nat} {f rest : Bits} (h : f.length = k) : takeField k (f ++ rest) = some (f, rest) := by
  subst h; simp [takeField]

/-- Everything `takeField` can give. -/
theorem takeField_eq_some {k : Nat} {bits f rest : Bits} :
    takeField k bits = some (f, rest) ↔ f.length = k ∧ bits = f ++ rest := by
  constructor
  · intro h
    unfold takeField at h
    split at h
    · injection h with h; injection h with h1 h2; subst h1 h2
      exact ⟨by simp; omega, (List.take_append_drop k bits).symm⟩
    · cases h
  · rintro ⟨h, rfl⟩; exact takeField_append h

@[simp] theorem length_fieldOf (k r : Nat) : (fieldOf k r).length = k := by simp [fieldOf]

theorem fieldOf_succ (k r : Nat) : fieldOf (k + 1) r = r.testBit 0 :: fieldOf k (r / 2) := by
  simp [fieldOf, List.range_succ_eq_map, Function.comp_def, Nat.testBit_succ]

@[simp] theorem fieldValue_nil : fieldValue [] = 0 := rfl

@[simp] theorem fieldValue_cons (b : Bit) (f : Bits) : fieldValue (b :: f) = b.toNat + 2 * fieldValue f := rfl

theorem fieldValue_lt (f : Bits) : fieldValue f < 2 ^ f.length := by
  induction f with
  | nil => decide
  | cons b f ih => rw [fieldValue_cons, List.length_cons, Nat.pow_succ]; have := Bool.toNat_lt b; omega

/-- A number that fits a field is the value of its field. -/
theorem fieldValue_fieldOf {k r : Nat} (h : r < 2 ^ k) : fieldValue (fieldOf k r) = r := by
  induction k generalizing r with
  | zero => simp at h; subst h; rfl
  | succ k ih =>
    rw [fieldOf_succ, fieldValue_cons, ih (by rw [Nat.pow_succ] at h; omega)]
    rw [Nat.testBit_zero]
    rcases Nat.mod_two_eq_zero_or_one r with h0 | h1
    · simp [h0]; omega
    · simp [h1]; omega

/-- A field is the field of its value. -/
theorem fieldOf_fieldValue (f : Bits) : fieldOf f.length (fieldValue f) = f := by
  induction f with
  | nil => rfl
  | cons b f ih =>
    rw [List.length_cons, fieldOf_succ, fieldValue_cons]
    have h1 : (b.toNat + 2 * fieldValue f) / 2 = fieldValue f := by have := Bool.toNat_lt b; omega
    have h2 : (b.toNat + 2 * fieldValue f).testBit 0 = b := by
      rw [Nat.testBit_zero]; cases b <;> simp [Nat.add_mod]
    rw [h1, h2, ih]

@[simp] theorem beats_nil : beats [] = [false] := rfl

@[simp] theorem beats_cons (e : Bits) (es : List Bits) : beats (e :: es) = true :: (e ++ beats es) := by
  simp [beats]

theorem length_lt_length_beats (es : List Bits) : es.length < (beats es).length := by
  induction es with
  | nil => decide
  | cons e es ih => simp; omega

theorem takeBeats_beats {k : Nat} {es : List Bits} (h : ∀ e ∈ es, e.length = k) (rest : Bits) {fuel : Nat}
    (hf : es.length < fuel) : takeBeats k fuel (beats es ++ rest) = some (es, rest) := by
  induction es generalizing fuel with
  | nil =>
    obtain ⟨fuel, rfl⟩ : ∃ m, fuel = m + 1 := ⟨fuel - 1, by simp at hf; omega⟩
    rfl
  | cons e es ih =>
    obtain ⟨fuel, rfl⟩ : ∃ m, fuel = m + 1 := ⟨fuel - 1, by simp at hf; omega⟩
    rw [beats_cons, List.cons_append, List.append_assoc, takeBeats, takeField_append (h e (by simp))]
    simp only
    rw [ih (fun x hx => h x (by simp [hx])) (by simpa using hf)]

/-- Reading a sequence gives the elements written, and leaves what follows. -/
theorem takeSequence_beats {k : Nat} {es : List Bits} (h : ∀ e ∈ es, e.length = k) (rest : Bits) :
    takeSequence k (beats es ++ rest) = some (es, rest) :=
  takeBeats_beats h rest (by have := length_lt_length_beats es; simp; omega)

/-- Everything `takeBeats` can give: elements of `k` bits, whose beats stand at the head of the bits read. -/
theorem takeBeats_eq_some {k fuel : Nat} {bits rest : Bits} {es : List Bits} (h : takeBeats k fuel bits = some (es, rest)) :
    (∀ e ∈ es, e.length = k) ∧ bits = beats es ++ rest := by
  induction fuel generalizing bits es rest with
  | zero => cases h
  | succ fuel ih =>
    match bits, h with
    | [], h => cases h
    | false :: bits, h => injection h with h; injection h with h1 h2; subst h1 h2; exact ⟨by simp, rfl⟩
    | true :: bits, h =>
      rw [takeBeats] at h
      split at h
      · cases h
      · rename_i e rest' he
        split at h
        · cases h
        · rename_i es' rest'' hes
          injection h with h; injection h with h1 h2; subst h1 h2
          obtain ⟨hl, rfl⟩ := takeField_eq_some.1 he
          obtain ⟨hall, rfl⟩ := ih hes
          exact ⟨by simpa [hl] using hall, by simp⟩

theorem takeSequence_eq_some {k : Nat} {bits rest : Bits} {es : List Bits} (h : takeSequence k bits = some (es, rest)) :
    (∀ e ∈ es, e.length = k) ∧ bits = beats es ++ rest := takeBeats_eq_some h

end Sys2Proof
end

