-- ==== Sys2Proof/Laws/Layout.lean ====
section
/-! SUPPORT. The parity-bit count, the positions and the layout functions: one lemma for what each gives. -/

namespace Sys2Proof.Machine

/-- The loop of R80 stops at the least `r >= s` with `2^r >= r + m + 1`, given turns enough. -/
theorem parityCountFrom_spec (m fuel s : Nat) (h : s + fuel + m + 1 ≤ 2 ^ (s + fuel)) :
    parityCountFrom m fuel s + m + 1 ≤ 2 ^ parityCountFrom m fuel s ∧
      ∀ t, s ≤ t → t < parityCountFrom m fuel s → 2 ^ t < t + m + 1 := by
  induction fuel generalizing s with
  | zero => exact ⟨by simpa [parityCountFrom] using h, fun t h1 h2 => absurd h2 (by simp [parityCountFrom]; omega)⟩
  | succ fuel ih =>
    unfold parityCountFrom
    split
    · obtain ⟨h1, h2⟩ := ih (s + 1) (by rw [show s + 1 + fuel = s + (fuel + 1) by omega]; omega)
      refine ⟨h1, fun t ht hr => ?_⟩
      rcases Nat.eq_or_lt_of_le ht with rfl | hlt
      · assumption
      · exact h2 t hlt hr
    · exact ⟨by omega, fun t h1 h2 => by omega⟩

theorem parityCount_spec (m : Nat) :
    parityCount m + m + 1 ≤ 2 ^ parityCount m ∧ ∀ t, t < parityCount m → 2 ^ t < t + m + 1 := by
  have h : 0 + (m + 1) + m + 1 ≤ 2 ^ (0 + (m + 1)) := by
    have := Nat.lt_two_pow_self (n := m); rw [Nat.zero_add, Nat.pow_succ]; omega
  obtain ⟨h1, h2⟩ := parityCountFrom_spec m (m + 1) 0 h
  exact ⟨h1, fun t ht => h2 t (Nat.zero_le t) ht⟩

/-- The least `r` of R80 is the only one. -/
theorem parityCount_unique {m r : Nat} (h : r + m + 1 ≤ 2 ^ r) (hmin : ∀ t, t < r → 2 ^ t < t + m + 1) :
    parityCount m = r := by
  obtain ⟨h1, h2⟩ := parityCount_spec m
  rcases Nat.lt_trichotomy (parityCount m) r with hlt | heq | hgt
  · have := hmin _ hlt; omega
  · exact heq
  · have := h2 _ hgt; omega

theorem n_eq (c : Config) : c.n = c.mode + c.s := rfl

/-- R81 (b). -/
theorem n_lt_two_pow (c : Config) : c.n < 2 ^ c.s := by
  have := (parityCount_spec c.mode).1; simp only [n_eq, Config.s]; omega

/-- R81 (a). -/
theorem two_le_s (c : Config) : 2 ≤ c.s := by
  have h := n_lt_two_pow c
  have hm := c.mode_pos
  simp only [n_eq] at h
  rcases hs : c.s with _ | _ | k
  · rw [hs] at h; simp at h; omega
  · rw [hs] at h; simp at h; omega
  · omega

/-- R81 (c), (d): what minimality gives at `j < S`. -/
theorem two_pow_le_mode_add {c : Config} {j : Nat} (h : j < c.s) : 2 ^ j ≤ c.mode + j := by
  have := (parityCount_spec c.mode).2 j h; omega

theorem two_pow_lt_n {c : Config} {j : Nat} (h : j < c.s) : 2 ^ j < c.n := by
  have := two_pow_le_mode_add h; rw [n_eq]; omega

theorem n_pos (c : Config) : 0 < c.n := by have := c.mode_pos; rw [n_eq]; omega

/-! Positions. -/

@[simp] theorem mem_positions {n p : Nat} : p ∈ positions n ↔ 1 ≤ p ∧ p ≤ n := by
  simp [positions, List.mem_range'_1]; omega

@[simp] theorem length_positions (n : Nat) : (positions n).length = n := by simp [positions]

theorem nodup_positions (n : Nat) : (positions n).Nodup := by simp [positions, List.nodup_range']

theorem positions_succ (n : Nat) : positions (n + 1) = positions n ++ [n + 1] := by
  simp [positions, List.range'_concat, Nat.add_comm]

/-- R82. -/
theorem isParityPos_iff {p : Nat} : isParityPos p = true ↔ ∃ j, p = 2 ^ j := by
  simp only [isParityPos, beq_iff_eq]
  exact ⟨fun h => ⟨_, h⟩, by rintro ⟨j, rfl⟩; rw [Nat.log2_two_pow]⟩

@[simp] theorem isParityPos_two_pow (j : Nat) : isParityPos (2 ^ j) = true := isParityPos_iff.2 ⟨j, rfl⟩

/-- A position of a codeword that is a power of two is parity slot `j` for some `j < S`. -/
theorem parityPos_lt {c : Config} {p : Nat} (hp : p ≤ c.n) (h : isParityPos p = true) : ∃ j, j < c.s ∧ p = 2 ^ j := by
  obtain ⟨j, rfl⟩ := isParityPos_iff.1 h
  exact ⟨j, (Nat.pow_lt_pow_iff_right (by decide)).1 (Nat.lt_of_le_of_lt hp (n_lt_two_pow c)), rfl⟩

theorem length_map_positions {n : Nat} (f : Nat → Bit) : ((positions n).map f).length = n := by simp

/-- Reading a codeword that was written position by position. -/
theorem bitAt_map_positions {n p : Nat} (f : Nat → Bit) (h : 1 ≤ p ∧ p ≤ n) : bitAt ((positions n).map f) p = f p := by
  have hp : p - 1 < ((positions n).map f).length := by simp; omega
  rw [bitAt, List.getD_eq_getElem _ _ hp]
  simp [positions, List.getElem_range']
  congr 1; omega

/-- A codeword is the list of its bits by position. -/
theorem map_bitAt_positions (v : Bits) : (positions v.length).map (bitAt v) = v := by
  apply List.ext_getElem (by simp)
  intro i h1 h2
  simp only [List.getElem_map, positions, List.getElem_range', bitAt]
  rw [List.getD_eq_getElem _ _ (by omega)]; congr 1; omega

/-- Two codewords of one length with the same bit at every position are equal. -/
theorem eq_of_bitAt {v w : Bits} (hl : v.length = w.length) (h : ∀ p, 1 ≤ p → p ≤ v.length → bitAt v p = bitAt w p) : v = w := by
  rw [← map_bitAt_positions v, ← map_bitAt_positions w, ← hl]
  exact List.map_congr_left fun p hp => h p (mem_positions.1 hp).1 (mem_positions.1 hp).2

theorem bitAt_of_length_lt {v : Bits} {p : Nat} (h : v.length < p) : bitAt v p = false := by
  rw [bitAt, List.getD_eq_default]; omega

@[simp] theorem bitAt_replicate_false (n p : Nat) : bitAt (List.replicate n false) p = false := by
  simp [bitAt, List.getD_eq_getElem?_getD, List.getElem?_replicate]; split <;> rfl

/-! The layout functions. -/

@[simp] theorem length_buildSkeleton (c : Config) (d : Bits) : (buildSkeleton c d).length = c.n := by simp [buildSkeleton]

theorem bitAt_buildSkeleton {c : Config} {d : Bits} {p : Nat} (h : 1 ≤ p ∧ p ≤ c.n) :
    bitAt (buildSkeleton c d) p = if isParityPos p then false else bitAt d (dataIndex p) :=
  bitAt_map_positions _ h

/-- Below `2^k` (and from 1 on) there are `k` powers of two; here counted up to a position. -/
theorem countP_isParityPos (p : Nat) (h : 1 ≤ p) : (positions p).countP isParityPos = Nat.log2 p + 1 := by
  induction p, h using Nat.le_induction with
  | base => decide
  | succ p hp ih =>
    rw [positions_succ, List.countP_append, ih]
    have h1 : p ≠ 0 := by omega
    have h2 : p + 1 ≠ 0 := by omega
    have hlo := Nat.log2_self_le h1
    have hhi : p < 2 ^ (Nat.log2 p + 1) := Nat.lt_log2_self
    simp only [List.countP_singleton]
    by_cases hpar : isParityPos (p + 1) = true
    · obtain ⟨j, hj⟩ := isParityPos_iff.1 hpar
      have hj0 : j ≠ 0 := by rintro rfl; simp at hj; omega
      obtain ⟨i, rfl⟩ := Nat.exists_eq_succ_of_ne_zero hj0
      have : Nat.log2 p = i := by
        rw [Nat.log2_eq_iff h1]; rw [Nat.pow_succ] at hj ⊢; have := Nat.one_le_two_pow (n := i); omega
      rw [if_pos hpar, hj, Nat.log2_two_pow, this]
    · rw [if_neg hpar]
      have : Nat.log2 (p + 1) = Nat.log2 p := by
        rw [Nat.log2_eq_iff h2]
        refine ⟨by omega, ?_⟩
        rcases Nat.lt_or_ge (p + 1) (2 ^ (Nat.log2 p + 1)) with h | h
        · exact h
        · exact absurd (isParityPos_iff.2 ⟨Nat.log2 p + 1, by omega⟩) hpar
      omega

theorem log2_n (c : Config) : Nat.log2 c.n + 1 = c.s := by
  have hs := two_le_s c
  have h : Nat.log2 c.n = c.s - 1 := by
    rw [Nat.log2_eq_iff (by have := n_pos c; omega)]
    have h1 : 2 ^ (c.s - 1) ≤ c.mode + (c.s - 1) := two_pow_le_mode_add (by omega)
    have h2 := n_lt_two_pow c
    rw [show c.s - 1 + 1 = c.s by omega]
    exact ⟨by rw [n_eq]; omega, h2⟩
  omega

/-- There are `MODE` data slots (R50). -/
theorem length_dataSlots (c : Config) : ((positions c.n).filter fun p => !isParityPos p).length = c.mode := by
  rw [← List.countP_eq_length_filter]
  have h1 := List.length_eq_countP_add_countP isParityPos (l := positions c.n)
  rw [countP_isParityPos _ (n_pos c), log2_n, length_positions, n_eq] at h1
  have h2 : (positions (c.mode + c.s)).countP (fun a => decide ¬isParityPos a = true) =
      (positions c.n).countP fun p => !isParityPos p := by
    rw [n_eq]; congr 1; funext a; simp
  rw [← h2]; rw [n_eq] at *; omega

/-- The data slots, in ascending order, carry the data indices 1, 2, 3, ... (R51, R83). -/
theorem map_dataIndex_dataSlots (n : Nat) :
    ((positions n).filter fun p => !isParityPos p).map dataIndex =
      List.range' 1 ((positions n).countP fun p => !isParityPos p) := by
  induction n with
  | zero => rfl
  | succ n ih =>
    rw [positions_succ, List.filter_append, List.map_append, ih, List.countP_append]
    by_cases hpar : isParityPos (n + 1) = true
    · simp [hpar]
    · have hcount := countP_isParityPos (n + 1) (by omega)
      have hsplit := List.length_eq_countP_add_countP isParityPos (l := positions (n + 1))
      have hneg : (positions (n + 1)).countP (fun a => decide ¬isParityPos a = true) =
          (positions (n + 1)).countP fun p => !isParityPos p := by congr 1; funext a; simp
      rw [hneg, length_positions, hcount, positions_succ, List.countP_append] at hsplit
      simp only [List.countP_singleton, hpar, List.filter_cons, List.filter_nil] at hsplit ⊢
      simp only [Bool.not_false, if_true, List.map_cons, List.map_nil] at hsplit ⊢
      rw [List.range'_concat]
      congr 2
      rw [dataIndex]; simp at hsplit ⊢; omega

@[simp] theorem length_stripParity (c : Config) (v : Bits) : (stripParity c v).length = c.mode := by
  rw [stripParity, List.length_map, length_dataSlots]

theorem stripParity_congr {c : Config} {v w : Bits}
    (h : ∀ p, 1 ≤ p → p ≤ c.n → isParityPos p = false → bitAt v p = bitAt w p) : stripParity c v = stripParity c w := by
  apply List.map_congr_left
  intro p hp
  obtain ⟨h1, h2⟩ := List.mem_filter.1 hp
  exact h p (mem_positions.1 h1).1 (mem_positions.1 h1).2 (by simpa using h2)

@[simp] theorem length_freeCw (c : Config) (k : Nat) : (freeCw c k).length = c.n := by simp [freeCw]

end Sys2Proof.Machine
end

