-- ==== Sys2Proof/Laws/State.lean ====
section
/-! SUPPORT. What each update of the state does to each field: true by rfl, so that no proof unfolds a record update. -/

namespace Sys2Proof.Machine

@[simp] theorem setCw_cfg (v : Bits) (s : State) : (setCw v s).cfg = s.cfg := rfl
@[simp] theorem setCw_cw (v : Bits) (s : State) : (setCw v s).cw = v := rfl
@[simp] theorem setCw_cwv (v : Bits) (s : State) : (setCw v s).cwv = true := rfl
@[simp] theorem setCw_errcnt (v : Bits) (s : State) : (setCw v s).errcnt = s.errcnt := rfl
@[simp] theorem setCw_cmderr (v : Bits) (s : State) : (setCw v s).cmderr = s.cmderr := rfl
@[simp] theorem setCw_errcode (v : Bits) (s : State) : (setCw v s).errcode = s.errcode := rfl
@[simp] theorem setCw_rsp (v : Bits) (s : State) : (setCw v s).rsp = s.rsp := rfl
@[simp] theorem setCw_inbox (v : Bits) (s : State) : (setCw v s).inbox = s.inbox := rfl
@[simp] theorem setCw_stamp (v : Bits) (s : State) : (setCw v s).stamp = s.stamp := rfl

@[simp] theorem updateCw_cfg (v : Bits) (s : State) : (updateCw v s).cfg = s.cfg := rfl
@[simp] theorem updateCw_cw (v : Bits) (s : State) : (updateCw v s).cw = v := rfl
@[simp] theorem updateCw_cwv (v : Bits) (s : State) : (updateCw v s).cwv = s.cwv := rfl
@[simp] theorem updateCw_errcnt (v : Bits) (s : State) : (updateCw v s).errcnt = s.errcnt := rfl
@[simp] theorem updateCw_cmderr (v : Bits) (s : State) : (updateCw v s).cmderr = s.cmderr := rfl
@[simp] theorem updateCw_errcode (v : Bits) (s : State) : (updateCw v s).errcode = s.errcode := rfl
@[simp] theorem updateCw_rsp (v : Bits) (s : State) : (updateCw v s).rsp = s.rsp := rfl
@[simp] theorem updateCw_inbox (v : Bits) (s : State) : (updateCw v s).inbox = s.inbox := rfl
@[simp] theorem updateCw_stamp (v : Bits) (s : State) : (updateCw v s).stamp = s.stamp := rfl

@[simp] theorem dropCw_cfg (s : State) : (dropCw s).cfg = s.cfg := rfl
@[simp] theorem dropCw_cw (s : State) : (dropCw s).cw = freeCw s.cfg s.stamp := rfl
@[simp] theorem dropCw_cwv (s : State) : (dropCw s).cwv = false := rfl
@[simp] theorem dropCw_errcnt (s : State) : (dropCw s).errcnt = s.errcnt := rfl
@[simp] theorem dropCw_cmderr (s : State) : (dropCw s).cmderr = s.cmderr := rfl
@[simp] theorem dropCw_errcode (s : State) : (dropCw s).errcode = s.errcode := rfl
@[simp] theorem dropCw_rsp (s : State) : (dropCw s).rsp = s.rsp := rfl
@[simp] theorem dropCw_inbox (s : State) : (dropCw s).inbox = s.inbox := rfl
@[simp] theorem dropCw_stamp (s : State) : (dropCw s).stamp = s.stamp + 1 := rfl

@[simp] theorem addErrors_cfg (u : Nat) (s : State) : (addErrors u s).cfg = s.cfg := rfl
@[simp] theorem addErrors_cw (u : Nat) (s : State) : (addErrors u s).cw = s.cw := rfl
@[simp] theorem addErrors_cwv (u : Nat) (s : State) : (addErrors u s).cwv = s.cwv := rfl
@[simp] theorem addErrors_errcnt (u : Nat) (s : State) : (addErrors u s).errcnt = saturate s.cfg (s.errcnt + u) := rfl
@[simp] theorem addErrors_cmderr (u : Nat) (s : State) : (addErrors u s).cmderr = s.cmderr := rfl
@[simp] theorem addErrors_errcode (u : Nat) (s : State) : (addErrors u s).errcode = s.errcode := rfl
@[simp] theorem addErrors_rsp (u : Nat) (s : State) : (addErrors u s).rsp = s.rsp := rfl
@[simp] theorem addErrors_inbox (u : Nat) (s : State) : (addErrors u s).inbox = s.inbox := rfl
@[simp] theorem addErrors_stamp (u : Nat) (s : State) : (addErrors u s).stamp = s.stamp := rfl

@[simp] theorem setErrors_cfg (u : Nat) (s : State) : (setErrors u s).cfg = s.cfg := rfl
@[simp] theorem setErrors_cw (u : Nat) (s : State) : (setErrors u s).cw = s.cw := rfl
@[simp] theorem setErrors_cwv (u : Nat) (s : State) : (setErrors u s).cwv = s.cwv := rfl
@[simp] theorem setErrors_errcnt (u : Nat) (s : State) : (setErrors u s).errcnt = saturate s.cfg u := rfl
@[simp] theorem setErrors_cmderr (u : Nat) (s : State) : (setErrors u s).cmderr = s.cmderr := rfl
@[simp] theorem setErrors_errcode (u : Nat) (s : State) : (setErrors u s).errcode = s.errcode := rfl
@[simp] theorem setErrors_rsp (u : Nat) (s : State) : (setErrors u s).rsp = s.rsp := rfl
@[simp] theorem setErrors_inbox (u : Nat) (s : State) : (setErrors u s).inbox = s.inbox := rfl
@[simp] theorem setErrors_stamp (u : Nat) (s : State) : (setErrors u s).stamp = s.stamp := rfl

@[simp] theorem clearErrors_cfg (s : State) : (clearErrors s).cfg = s.cfg := rfl
@[simp] theorem clearErrors_cw (s : State) : (clearErrors s).cw = s.cw := rfl
@[simp] theorem clearErrors_cwv (s : State) : (clearErrors s).cwv = s.cwv := rfl
@[simp] theorem clearErrors_errcnt (s : State) : (clearErrors s).errcnt = 0 := rfl
@[simp] theorem clearErrors_cmderr (s : State) : (clearErrors s).cmderr = s.cmderr := rfl
@[simp] theorem clearErrors_errcode (s : State) : (clearErrors s).errcode = s.errcode := rfl
@[simp] theorem clearErrors_rsp (s : State) : (clearErrors s).rsp = s.rsp := rfl
@[simp] theorem clearErrors_inbox (s : State) : (clearErrors s).inbox = s.inbox := rfl
@[simp] theorem clearErrors_stamp (s : State) : (clearErrors s).stamp = s.stamp := rfl

@[simp] theorem respond_cfg (r : Result) (s : State) : (respond r s).cfg = s.cfg := rfl
@[simp] theorem respond_cw (r : Result) (s : State) : (respond r s).cw = s.cw := rfl
@[simp] theorem respond_cwv (r : Result) (s : State) : (respond r s).cwv = s.cwv := rfl
@[simp] theorem respond_errcnt (r : Result) (s : State) : (respond r s).errcnt = s.errcnt := rfl
@[simp] theorem respond_cmderr (r : Result) (s : State) : (respond r s).cmderr = s.cmderr := rfl
@[simp] theorem respond_errcode (r : Result) (s : State) : (respond r s).errcode = s.errcode := rfl
@[simp] theorem respond_rsp (r : Result) (s : State) : (respond r s).rsp = some (.ok r) := rfl
@[simp] theorem respond_inbox (r : Result) (s : State) : (respond r s).inbox = s.inbox := rfl
@[simp] theorem respond_stamp (r : Result) (s : State) : (respond r s).stamp = s.stamp := rfl

@[simp] theorem refuse_cfg (e : Cause) (s : State) : (refuse e s).cfg = s.cfg := rfl
@[simp] theorem refuse_cw (e : Cause) (s : State) : (refuse e s).cw = s.cw := rfl
@[simp] theorem refuse_cwv (e : Cause) (s : State) : (refuse e s).cwv = s.cwv := rfl
@[simp] theorem refuse_errcnt (e : Cause) (s : State) : (refuse e s).errcnt = s.errcnt := rfl
@[simp] theorem refuse_cmderr (e : Cause) (s : State) : (refuse e s).cmderr = true := rfl
@[simp] theorem refuse_errcode (e : Cause) (s : State) : (refuse e s).errcode = e.code := rfl
@[simp] theorem refuse_rsp (e : Cause) (s : State) : (refuse e s).rsp = some (.refused e.code) := rfl
@[simp] theorem refuse_inbox (e : Cause) (s : State) : (refuse e s).inbox = s.inbox := rfl
@[simp] theorem refuse_stamp (e : Cause) (s : State) : (refuse e s).stamp = s.stamp := rfl

@[simp] theorem applyReset_cfg (s : State) : (applyReset s).cfg = s.cfg := rfl
@[simp] theorem applyReset_cw (s : State) : (applyReset s).cw = freeCw s.cfg s.stamp := rfl
@[simp] theorem applyReset_cwv (s : State) : (applyReset s).cwv = false := rfl
@[simp] theorem applyReset_errcnt (s : State) : (applyReset s).errcnt = 0 := rfl
@[simp] theorem applyReset_cmderr (s : State) : (applyReset s).cmderr = false := rfl
@[simp] theorem applyReset_errcode (s : State) : (applyReset s).errcode = 0#3 := rfl
@[simp] theorem applyReset_rsp (s : State) : (applyReset s).rsp = none := rfl
@[simp] theorem applyReset_inbox (s : State) : (applyReset s).inbox = s.inbox := rfl
@[simp] theorem applyReset_stamp (s : State) : (applyReset s).stamp = s.stamp + 1 := rfl

@[simp] theorem takeMove_cfg (rest : List HostMove) (s : State) : (takeMove rest s).cfg = s.cfg := rfl
@[simp] theorem takeMove_cw (rest : List HostMove) (s : State) : (takeMove rest s).cw = s.cw := rfl
@[simp] theorem takeMove_cwv (rest : List HostMove) (s : State) : (takeMove rest s).cwv = s.cwv := rfl
@[simp] theorem takeMove_errcnt (rest : List HostMove) (s : State) : (takeMove rest s).errcnt = s.errcnt := rfl
@[simp] theorem takeMove_cmderr (rest : List HostMove) (s : State) : (takeMove rest s).cmderr = s.cmderr := rfl
@[simp] theorem takeMove_errcode (rest : List HostMove) (s : State) : (takeMove rest s).errcode = s.errcode := rfl
@[simp] theorem takeMove_rsp (rest : List HostMove) (s : State) : (takeMove rest s).rsp = s.rsp := rfl
@[simp] theorem takeMove_inbox (rest : List HostMove) (s : State) : (takeMove rest s).inbox = rest := rfl
@[simp] theorem takeMove_stamp (rest : List HostMove) (s : State) : (takeMove rest s).stamp = s.stamp := rfl

@[simp] theorem resetOf_cfg (c : Config) : (State.resetOf c).cfg = c := rfl
@[simp] theorem resetOf_cw (c : Config) : (State.resetOf c).cw = freeCw c 0 := rfl
@[simp] theorem resetOf_cwv (c : Config) : (State.resetOf c).cwv = false := rfl
@[simp] theorem resetOf_errcnt (c : Config) : (State.resetOf c).errcnt = 0 := rfl
@[simp] theorem resetOf_cmderr (c : Config) : (State.resetOf c).cmderr = false := rfl
@[simp] theorem resetOf_errcode (c : Config) : (State.resetOf c).errcode = 0#3 := rfl
@[simp] theorem resetOf_rsp (c : Config) : (State.resetOf c).rsp = none := rfl
@[simp] theorem resetOf_inbox (c : Config) : (State.resetOf c).inbox = [] := rfl
@[simp] theorem resetOf_stamp (c : Config) : (State.resetOf c).stamp = 1 := rfl

theorem reset_eq : State.reset = State.resetOf Config.worked := rfl

end Sys2Proof.Machine
end

