-- ==== Sys2Proof/Laws/Ops.lean ====
section
/-! SUPPORT. What each shared operation can do, said once. -/

namespace Sys2Proof.Machine

@[simp] theorem checked_none (s t : State) : checked none s t = .next t := rfl

@[simp] theorem checked_some (e : Cause) (s t : State) : checked (some e) s t = .next (refuse e s) := rfl

/-- A checked operation always answers a next state: the refusal of the first failed check, or the completed operation. -/
theorem checked_cases {e : Option Cause} {s t u : State} (h : checked e s t = .next u) :
    (∃ x, e = some x ∧ u = refuse x s) ∨ (e = none ∧ u = t) := by
  cases e with
  | none => exact .inr ⟨rfl, (by injection h with h; exact h.symm)⟩
  | some x => exact .inl ⟨x, rfl, (by injection h with h; exact h.symm)⟩

theorem checked_completes (e : Option Cause) (s t : State) : ∃ u, checked e s t = .next u := by
  cases e with
  | none => exact ⟨t, rfl⟩
  | some x => exact ⟨refuse x s, rfl⟩

theorem checked_eq_next_iff {e : Option Cause} {s t u : State} :
    checked e s t = .next u ↔ (∃ x, e = some x ∧ u = refuse x s) ∨ (e = none ∧ u = t) := by
  refine ⟨checked_cases, ?_⟩
  rintro (⟨x, rfl, rfl⟩ | ⟨rfl, rfl⟩) <;> rfl

/-! The checks. -/

theorem iteCause_eq_some {p : Prop} [Decidable p] {x e : Cause} : (if p then none else some x) = some e ↔ ¬p ∧ e = x := by
  by_cases hp : p <;> simp [hp, eq_comm]

theorem codewordError_eq_none {c : Config} {v : Bits} : codewordError c v = none ↔ v.length = c.n := by
  simp [codewordError]

theorem codewordError_eq_some {c : Config} {v : Bits} {e : Cause} :
    codewordError c v = some e ↔ v.length ≠ c.n ∧ e = .len := by
  exact iteCause_eq_some

theorem blockError_eq_none {c : Config} {d : Bits} : blockError c d = none ↔ d.length = c.mode := by
  simp [blockError]

theorem blockError_eq_some {c : Config} {d : Bits} {e : Cause} :
    blockError c d = some e ↔ d.length ≠ c.mode ∧ e = .len := by
  exact iteCause_eq_some

theorem fits_iff {c : Config} {len : Nat} : fits c len = true ↔ ∀ m ∈ c.seqmax, len ≤ m := by
  unfold fits; cases h : c.seqmax <;> simp

theorem sequenceError_eq_none {c : Config} {a b : Nat} :
    sequenceError c a b = none ↔ (∀ m ∈ c.seqmax, a ≤ m) ∧ ∀ m ∈ c.seqmax, b ≤ m := by
  rw [← fits_iff, ← fits_iff]; simp [sequenceError]

theorem sequenceError_eq_some {c : Config} {a b : Nat} {e : Cause} :
    sequenceError c a b = some e ↔ (¬((∀ m ∈ c.seqmax, a ≤ m) ∧ ∀ m ∈ c.seqmax, b ≤ m)) ∧ e = .len := by
  rw [← fits_iff, ← fits_iff, ← Bool.and_eq_true]; exact iteCause_eq_some

theorem wholeByteError_eq_none {b : Bits} : wholeByteError b = none ↔ b.length % 8 = 0 := by
  simp [wholeByteError]

theorem wholeByteError_eq_some {b : Bits} {e : Cause} :
    wholeByteError b = some e ↔ b.length % 8 ≠ 0 ∧ e = .len := by
  exact iteCause_eq_some

theorem drawCountError_eq_none {k : Nat} {draws : List Nat} : drawCountError k draws = none ↔ k ≤ draws.length := by
  simp [drawCountError]

theorem drawCountError_eq_some {k : Nat} {draws : List Nat} {e : Cause} :
    drawCountError k draws = some e ↔ draws.length < k ∧ e = .len := by
  rw [← Nat.not_le]; exact iteCause_eq_some

theorem drawRangeError_eq_none {c : Config} {draws : List Nat} :
    drawRangeError c draws = none ↔ ∀ r ∈ draws, r < c.n := by
  simp [drawRangeError]

theorem drawRangeError_eq_some {c : Config} {draws : List Nat} {e : Cause} :
    drawRangeError c draws = some e ↔ (∃ r ∈ draws, c.n ≤ r) ∧ e = .pos := by
  unfold drawRangeError; rw [iteCause_eq_some]; simp

theorem noValueError_eq_none {s : State} : noValueError s = none ↔ s.cwv = true := by
  simp [noValueError]

theorem noValueError_eq_some {s : State} {e : Cause} : noValueError s = some e ↔ s.cwv = false ∧ e = .noVal := by
  unfold noValueError; rw [iteCause_eq_some]; simp

/-! The counter. -/

theorem saturate_unbounded {c : Config} (h : c.errw = none) (k : Nat) : saturate c k = k := by
  simp [saturate, h]

theorem saturate_bounded {c : Config} {w : Nat} (h : c.errw = some w) (k : Nat) : saturate c k = min k (2 ^ w - 1) := by
  simp [saturate, h]

@[simp] theorem saturate_saturate (c : Config) (k : Nat) : saturate c (saturate c k) = saturate c k := by
  unfold saturate; cases c.errw <;> simp

@[simp] theorem saturate_zero (c : Config) : saturate c 0 = 0 := by
  unfold saturate; cases c.errw <;> simp

/-! The step. -/

theorem step_idle {s : State} (h : s.inbox = []) : step s = .next s := by
  simp [step, h]

theorem step_reset {s : State} {rest : List HostMove} (h : s.inbox = .reset :: rest) :
    step s = .next (applyReset (takeMove rest s)) := by
  simp [step, h]

theorem step_command {s : State} {w : CommandWord} {rest : List HostMove} {i : Instr}
    (h : s.inbox = .command w :: rest) (hd : decodeCommand s w = .ok i) : step s = exec i (takeMove rest s) := by
  simp [step, h, hd]

theorem step_undecoded {s : State} {w : CommandWord} {rest : List HostMove} {e : DecodeError}
    (h : s.inbox = .command w :: rest) (hd : decodeCommand s w = .error e) :
    step s = .next (refuse (DecodeError.cause e) (takeMove rest s)) := by
  simp [step, h, hd]

/-- Everything a step can do: wait, reset, run the decoded operation, or refuse a command that decodes to none. -/
theorem step_cases {s t : State} (h : step s = .next t) :
    (s.inbox = [] ∧ t = s) ∨
    (∃ rest, s.inbox = .reset :: rest ∧ t = applyReset (takeMove rest s)) ∨
    (∃ w rest i, s.inbox = .command w :: rest ∧ decodeCommand s w = .ok i ∧ exec i (takeMove rest s) = .next t) ∨
    (∃ w rest e, s.inbox = .command w :: rest ∧ decodeCommand s w = .error e ∧
      t = refuse (DecodeError.cause e) (takeMove rest s)) := by
  rcases hin : s.inbox with _ | ⟨m, rest⟩
  · rw [step_idle hin] at h; injection h with h; exact .inl ⟨rfl, h.symm⟩
  · cases m with
    | reset => rw [step_reset hin] at h; injection h with h; exact .inr (.inl ⟨rest, rfl, h.symm⟩)
    | command w =>
      cases hd : decodeCommand s w with
      | ok i => rw [step_command hin hd] at h; exact .inr (.inr (.inl ⟨w, rest, i, rfl, hd, h⟩))
      | error e =>
        rw [step_undecoded hin hd] at h; injection h with h
        exact .inr (.inr (.inr ⟨w, rest, e, rfl, hd, h.symm⟩))

end Sys2Proof.Machine
end

