-- ==== Sys2Proof/Laws/Sequence.lean ====
section
/-! SUPPORT. What the sequence functions give: lengths, elements, and how they split over concatenation. -/

namespace Sys2Proof.Machine

@[simp] theorem length_complementAt (v : Bits) (T : List Nat) : (complementAt v T).length = v.length := by
  simp [complementAt]

/-- Every bit of `complementAt`. -/
theorem getElem?_complementAt (v : Bits) (T : List Nat) (i : Nat) :
    (complementAt v T)[i]? = v[i]?.map fun b => if i ∈ T then !b else b := by
  simp only [complementAt, List.getElem?_map, List.getElem?_zipIdx, Option.map_map]
  cases v[i]? <;> simp [Function.comp_def]

@[simp] theorem length_flipAt (v : Bits) (r : Nat) : (flipAt v r).length = v.length := by simp [flipAt]

theorem getElem?_flipAt (v : Bits) (r i : Nat) :
    (flipAt v r)[i]? = v[i]?.map fun b => if i = r then !b else b := by
  simp [flipAt, getElem?_complementAt]

/-- Complementing two disjoint sets of indices, one after the other. -/
theorem complementAt_append {v : Bits} {T U : List Nat} (h : ∀ i ∈ T, i ∉ U) :
    complementAt v (T ++ U) = complementAt (complementAt v T) U := by
  apply List.ext_getElem?
  intro i
  simp only [getElem?_complementAt, Option.map_map, List.mem_append]
  cases v[i]? with
  | none => rfl
  | some b =>
    by_cases hT : i ∈ T
    · simp [hT, h i hT]
    · by_cases hU : i ∈ U <;> simp [hT, hU]

/-- Complementing the same indices twice restores the sequence. -/
@[simp] theorem complementAt_complementAt (v : Bits) (T : List Nat) : complementAt (complementAt v T) T = v := by
  apply List.ext_getElem?
  intro i
  simp only [getElem?_complementAt, Option.map_map]
  cases v[i]? with
  | none => rfl
  | some b => by_cases hT : i ∈ T <;> simp [hT]

@[simp] theorem flipAt_flipAt (v : Bits) (r : Nat) : flipAt (flipAt v r) r = v := complementAt_complementAt v [r]

/-! Segments. -/

@[simp] theorem length_segment {α : Type} (b : List α) (n : Nat) : (segment b n).length = b.length / n := by
  simp [segment]

theorem getElem?_segment {α : Type} {b : List α} {n k : Nat} (h : k < b.length / n) :
    (segment b n)[k]? = some ((b.drop (k * n)).take n) := by
  simp [segment, h]

theorem length_of_mem_segment {α : Type} {b w : List α} {n : Nat} (h : w ∈ segment b n) : w.length = n := by
  obtain ⟨k, hk, rfl⟩ := List.mem_map.1 h
  have hk := List.mem_range.1 hk
  have h1 : (k + 1) * n ≤ b.length := Nat.le_trans (Nat.mul_le_mul_right n hk) (Nat.div_mul_le_self b.length n)
  rw [Nat.succ_mul] at h1
  simp; omega

theorem segment_eq_nil {α : Type} {b : List α} {n : Nat} (h : b.length < n) : segment b n = [] := by
  simp [segment, Nat.div_eq_of_lt h]

/-- The first segment and the rest. -/
theorem segment_append {α : Type} {w b : List α} {n : Nat} (hn : 0 < n) (hw : w.length = n) :
    segment (w ++ b) n = w :: segment b n := by
  have h1 : (w ++ b).length / n = b.length / n + 1 := by
    rw [List.length_append, hw, Nat.add_comm, Nat.add_div_right _ hn]
  simp only [segment, h1, List.range_succ_eq_map, List.map_cons, List.map_map, Nat.zero_mul, List.drop_zero]
  congr 1
  · rw [← hw, List.take_left]
  · apply List.map_congr_left
    intro k _
    simp only [Function.comp_apply, Nat.succ_mul]
    rw [Nat.add_comm, ← hw, ← List.drop_drop, List.drop_left]

/-- Cutting a concatenation of groups of `n` gives the groups back. -/
theorem segment_flatten {α : Type} {ws : List (List α)} {n : Nat} (hn : 0 < n) (h : ∀ w ∈ ws, w.length = n) :
    segment ws.flatten n = ws := by
  induction ws with
  | nil => exact segment_eq_nil hn
  | cons w ws ih =>
    rw [List.flatten_cons, segment_append hn (h w (by simp)), ih fun x hx => h x (by simp [hx])]

/-- Induction over a sequence in groups of `n`. -/
theorem segment_induction {α : Type} {n : Nat} (hn : 0 < n) {P : List α → Prop} (short : ∀ b, b.length < n → P b)
    (more : ∀ w b, w.length = n → P b → P (w ++ b)) (b : List α) : P b := by
  induction hb : b.length using Nat.strong_induction_on generalizing b with
  | _ len ih =>
    rcases Nat.lt_or_ge b.length n with h | h
    · exact short b h
    · rw [← List.take_append_drop n b]
      refine more _ _ (by simp; omega) (ih (b.length - n) (by omega) _ (by simp))

/-- The segments cover all but the remainder. -/
theorem flatten_segment {α : Type} {n : Nat} (hn : 0 < n) (b : List α) :
    (segment b n).flatten = b.take (b.length - b.length % n) := by
  induction b using segment_induction hn with
  | short b h => rw [segment_eq_nil h, Nat.mod_eq_of_lt h]; simp
  | more w b hw ih =>
    have h1 : (w ++ b).length % n = b.length % n := by rw [List.length_append, hw, Nat.add_mod_left]
    have h2 : b.length % n ≤ b.length := Nat.mod_le _ _
    rw [segment_append hn hw, List.flatten_cons, ih, h1, List.length_append,
      show w.length + b.length - b.length % n = w.length + (b.length - b.length % n) by omega, List.take_length_add_append]

theorem segment_append_whole {α : Type} {n : Nat} (hn : 0 < n) (a b : List α) (h : a.length % n = 0) :
    segment (a ++ b) n = segment a n ++ segment b n := by
  induction a using segment_induction hn with
  | short a ha =>
    rw [Nat.mod_eq_of_lt ha] at h
    obtain rfl := List.eq_nil_of_length_eq_zero h
    rw [segment_eq_nil (b := ([] : List α)) hn]; rfl
  | more w a hw ih =>
    rw [List.length_append, hw, Nat.add_mod_left] at h
    rw [List.append_assoc, segment_append hn hw, ih h, segment_append hn hw, List.cons_append]

/-! Padding. -/

theorem length_padTo {m : Nat} (hm : 0 < m) (b : Bits) : (padTo b m).length = (b.length + m - 1) / m * m := by
  rw [padTo, List.length_append, List.length_replicate]
  obtain ⟨q, r, hr, hb⟩ : ∃ q r, r < m ∧ b.length = q * m + r :=
    ⟨b.length / m, b.length % m, Nat.mod_lt _ hm, by rw [Nat.mul_comm]; exact (Nat.div_add_mod _ _).symm⟩
  have hmod : b.length % m = r := by rw [hb, Nat.mul_add_mod', Nat.mod_eq_of_lt hr]
  rw [hmod]
  rcases Nat.eq_zero_or_pos r with rfl | hpos
  · have : (b.length + m - 1) / m = q := Nat.div_eq_of_lt_le (by omega) (by rw [Nat.add_mul]; omega)
    rw [this, Nat.sub_zero, Nat.mod_self]; omega
  · have : (b.length + m - 1) / m = q + 1 :=
      Nat.div_eq_of_lt_le (by rw [Nat.add_mul]; omega) (by rw [Nat.add_mul, Nat.add_mul]; omega)
    rw [this, Nat.mod_eq_of_lt (show m - r < m by omega), Nat.add_mul]; omega

theorem padTo_length_mod {m : Nat} (hm : 0 < m) (b : Bits) : (padTo b m).length % m = 0 := by
  rw [length_padTo hm]; simp

theorem padTo_of_whole {m : Nat} {b : Bits} (h : b.length % m = 0) : padTo b m = b := by
  simp [padTo, h]

/-! Bytes. -/

@[simp] theorem length_bitsOfByte (x : Byte) : (bitsOfByte x).length = 8 := by simp [bitsOfByte]

@[simp] theorem length_bytesToBits (y : List Byte) : (bytesToBits y).length = 8 * y.length := by
  induction y with
  | nil => rfl
  | cons x y ih =>
    rw [bytesToBits, List.flatMap_cons, List.length_append, length_bitsOfByte, ← bytesToBits, ih, List.length_cons]; omega

theorem bytesToBits_cons (x : Byte) (y : List Byte) : bytesToBits (x :: y) = bitsOfByte x ++ bytesToBits y := by
  simp [bytesToBits]

theorem byteOfBits_bitsOfByte (x : Byte) : byteOfBits (bitsOfByte x) = x := by
  revert x; decide

@[simp] theorem length_bitsToBytes (b : Bits) : (bitsToBytes b).length = b.length / 8 := by simp [bitsToBytes]

theorem bitsToBytes_append {w b : Bits} (h : w.length = 8) : bitsToBytes (w ++ b) = byteOfBits w :: bitsToBytes b := by
  rw [bitsToBytes, segment_append (by decide) h, List.map_cons]; rfl

theorem length_wholeBytes (b : Bits) : (wholeBytes b).length = 8 * (b.length / 8) := by
  rw [wholeBytes, List.length_take]; omega

end Sys2Proof.Machine
end

