-- ==== Sys2Proof/Laws/Parity.lean ====
section
/-! SUPPORT. The syndrome-XOR tree: what a coverage set holds, the digits of the syndrome, and how complementing a bit changes it. -/

namespace Sys2Proof.Machine

/-! The exclusive-or over a list of positions. -/

@[simp] theorem xorAt_nil (v : Bits) : xorAt v [] = false := rfl

@[simp] theorem xorAt_cons (v : Bits) (q : Nat) (qs : List Nat) : xorAt v (q :: qs) = (bitAt v q ^^ xorAt v qs) := rfl

theorem xorAt_congr {v w : Bits} {qs : List Nat} (h : ∀ q ∈ qs, bitAt v q = bitAt w q) : xorAt v qs = xorAt w qs := by
  unfold xorAt; rw [List.map_congr_left h]

/-- A position that occurs once among `qs` contributes its bit once. -/
theorem xorAt_filter_ne {v : Bits} {q : Nat} {qs : List Nat} (hn : qs.Nodup) (hq : q ∈ qs) :
    xorAt v qs = (bitAt v q ^^ xorAt v (qs.filter (· ≠ q))) := by
  induction qs with
  | nil => simp at hq
  | cons p qs ih =>
    obtain ⟨hp, hn⟩ := List.nodup_cons.1 hn
    rcases List.mem_cons.1 hq with rfl | hmem
    · rw [List.filter_cons_of_neg (by simp), List.filter_eq_self.2 fun x hx => by
        have : x ≠ q := fun h => hp (h ▸ hx)
        simpa using this]
      rfl
    · have hpq : p ≠ q := fun h => hp (h ▸ hmem)
      rw [List.filter_cons_of_pos (by simpa using hpq), xorAt_cons, xorAt_cons, ih hn hmem, Bool.xor_left_comm]

/-- Two codewords that differ at position `q` alone, among `qs`. -/
theorem xorAt_flip {v w : Bits} {q : Nat} {qs : List Nat} (hn : qs.Nodup)
    (h : ∀ p ∈ qs, bitAt w p = (bitAt v p ^^ decide (p = q))) : xorAt w qs = (xorAt v qs ^^ decide (q ∈ qs)) := by
  induction qs with
  | nil => rfl
  | cons p qs ih =>
    obtain ⟨hp, hn⟩ := List.nodup_cons.1 hn
    rw [xorAt_cons, xorAt_cons, h p (by simp), ih hn fun x hx => h x (by simp [hx])]
    by_cases hq : p = q
    · subst hq; simp [hp]
    · have : q ≠ p := fun h => hq h.symm
      simp [hq, this, List.mem_cons]

/-! Coverage sets. -/

theorem mem_cover {c : Config} {i q : Nat} : q ∈ cover c i ↔ (1 ≤ q ∧ q ≤ c.n) ∧ q.testBit i = true := by
  simp [cover, List.mem_filter]

theorem nodup_cover (c : Config) (i : Nat) : (cover c i).Nodup := (nodup_positions _).filter _

/-- `2^i` lies in `cover(i)` and in no other coverage set (R95). -/
theorem two_pow_mem_cover {c : Config} {i k : Nat} (h : i < c.s) : 2 ^ i ∈ cover c k ↔ k = i := by
  rw [mem_cover, Nat.testBit_two_pow]
  have h1 := two_pow_lt_n h
  have h2 := Nat.one_le_two_pow (n := i)
  simp [eq_comm]; intro _; omega

/-! Digits. -/

/-- A sum of distinct powers of two never carries (R110 (b)): its bound and its digits. -/
theorem sum_bits_spec (f : Nat → Bit) (s : Nat) :
    ((List.range s).map fun i => 2 ^ i * (f i).toNat).sum < 2 ^ s ∧
      ∀ i, ((List.range s).map fun i => 2 ^ i * (f i).toNat).sum.testBit i = (decide (i < s) && f i) := by
  induction s with
  | zero => simp
  | succ s ih =>
    obtain ⟨hlt, hb⟩ := ih
    rw [List.range_succ, List.map_append, List.sum_append, List.map_singleton, List.sum_singleton]
    refine ⟨?_, fun i => ?_⟩
    · have : 2 ^ s * (f s).toNat ≤ 2 ^ s := by cases f s <;> simp
      rw [Nat.pow_succ]; omega
    · rw [Nat.add_comm, Nat.testBit_two_pow_mul_add _ hlt]
      rcases Nat.lt_trichotomy i s with h | h | h
      · rw [if_pos h, hb]; simp [h, Nat.lt_succ_of_lt h]
      · subst h; cases f i <;> simp
      · rw [if_neg (by omega), show i - s = (i - s - 1) + 1 by omega]
        have h' : ¬i < s + 1 := by omega
        cases f s <;> simp [h', Nat.testBit_succ]

theorem syndrome_lt (c : Config) (v : Bits) : syndrome c v < 2 ^ c.s := (sum_bits_spec (sind c v) c.s).1

theorem testBit_syndrome (c : Config) (v : Bits) (i : Nat) :
    (syndrome c v).testBit i = (decide (i < c.s) && sind c v i) := (sum_bits_spec (sind c v) c.s).2 i

/-- A syndrome is what its digits are. -/
theorem syndrome_eq_iff {c : Config} {v : Bits} {y : Nat} (hy : y < 2 ^ c.s) :
    syndrome c v = y ↔ ∀ i, i < c.s → sind c v i = y.testBit i := by
  constructor
  · rintro rfl i hi; rw [testBit_syndrome]; simp [hi]
  · intro h
    apply Nat.eq_of_testBit_eq
    intro i
    rw [testBit_syndrome]
    by_cases hi : i < c.s
    · simp [hi, h i hi]
    · rw [Nat.testBit_lt_two_pow (Nat.lt_of_lt_of_le hy (Nat.pow_le_pow_right (by decide) (by omega)))]; simp [hi]

theorem syndrome_eq_zero_iff {c : Config} {v : Bits} : syndrome c v = 0 ↔ ∀ i, i < c.s → sind c v i = false := by
  rw [syndrome_eq_iff (Nat.two_pow_pos _)]; simp

/-! Complementing one bit. -/

theorem bitAt_flipAt {v : Bits} {q p : Nat} (hq : 1 ≤ q ∧ q ≤ v.length) (hp : 1 ≤ p) :
    bitAt (flipAt v (q - 1)) p = (bitAt v p ^^ decide (p = q)) := by
  rw [bitAt, bitAt, List.getD_eq_getElem?_getD, List.getD_eq_getElem?_getD, getElem?_flipAt]
  by_cases h : p = q
  · subst h
    rw [List.getElem?_eq_getElem (by omega)]; simp
  · have : p - 1 ≠ q - 1 := by omega
    cases hv : v[p - 1]? <;> simp [this, h]

theorem sind_flipAt {c : Config} {v : Bits} {q : Nat} (hv : v.length = c.n) (hq : 1 ≤ q ∧ q ≤ c.n) (i : Nat) :
    sind c (flipAt v (q - 1)) i = (sind c v i ^^ q.testBit i) := by
  unfold sind
  rw [xorAt_flip (v := v) (q := q) (nodup_cover c i) fun p hp => bitAt_flipAt (by omega) (mem_cover.1 hp).1.1]
  congr 1
  by_cases h : q.testBit i = true
  · simp [mem_cover, hq, h]
  · simp [mem_cover, h]

/-- Complementing position `q` changes the syndrome by `xor q` (R98). -/
theorem syndrome_flipAt {c : Config} {v : Bits} {q : Nat} (hv : v.length = c.n) (hq : 1 ≤ q ∧ q ≤ c.n) :
    syndrome c (flipAt v (q - 1)) = syndrome c v ^^^ q := by
  have hqs : q < 2 ^ c.s := Nat.lt_of_le_of_lt hq.2 (n_lt_two_pow c)
  rw [syndrome_eq_iff (Nat.xor_lt_two_pow (syndrome_lt c v) hqs)]
  intro i hi
  rw [sind_flipAt hv hq, Nat.testBit_xor, testBit_syndrome]; simp [hi]

/-! The two modes. -/

@[simp] theorem length_writeParity (c : Config) (v : Bits) : (writeParity c v).length = c.n := by simp [writeParity]

theorem bitAt_writeParity {c : Config} {v : Bits} {p : Nat} (h : 1 ≤ p ∧ p ≤ c.n) :
    bitAt (writeParity c v) p = if isParityPos p then sind c v (Nat.log2 p) else bitAt v p :=
  bitAt_map_positions _ h

/-- What `sind` sees after write mode: the old bit of its own slot (R99). -/
theorem sind_writeParity {c : Config} {v : Bits} {i : Nat} (h : i < c.s) :
    sind c (writeParity c v) i = bitAt v (2 ^ i) := by
  have hmem : 2 ^ i ∈ cover c i := (two_pow_mem_cover h).2 rfl
  have hrest : xorAt (writeParity c v) ((cover c i).filter (· ≠ 2 ^ i)) = xorAt v ((cover c i).filter (· ≠ 2 ^ i)) := by
    apply xorAt_congr
    intro q hq
    obtain ⟨hq1, hq2⟩ := List.mem_filter.1 hq
    obtain ⟨hqr, hqb⟩ := mem_cover.1 hq1
    rw [bitAt_writeParity hqr, if_neg]
    intro hpar
    obtain ⟨j, rfl⟩ := isParityPos_iff.1 hpar
    rw [Nat.testBit_two_pow] at hqb
    simp_all
  have hs : sind c v i = (bitAt v (2 ^ i) ^^ xorAt v ((cover c i).filter (· ≠ 2 ^ i))) :=
    xorAt_filter_ne (nodup_cover c i) hmem
  have hw : sind c (writeParity c v) i =
      (bitAt (writeParity c v) (2 ^ i) ^^ xorAt (writeParity c v) ((cover c i).filter (· ≠ 2 ^ i))) :=
    xorAt_filter_ne (nodup_cover c i) hmem
  rw [hw, hrest, bitAt_writeParity (mem_cover.1 hmem).1, if_pos (isParityPos_two_pow i), Nat.log2_two_pow, hs,
    Bool.xor_assoc, Bool.xor_self, Bool.xor_false]

/-- Write mode yields a valid codeword exactly when every parity slot held 0 (R99, R187). -/
theorem syndrome_writeParity_eq_zero_iff {c : Config} {v : Bits} :
    syndrome c (writeParity c v) = 0 ↔ ∀ i, i < c.s → bitAt v (2 ^ i) = false := by
  rw [syndrome_eq_zero_iff]
  exact forall_congr' fun i => forall_congr' fun hi => by rw [sind_writeParity hi]

@[simp] theorem length_correct_cw (c : Config) (v : Bits) : (correct c v).cw.length = v.length := by
  unfold correct; split
  · rfl
  · split <;> simp

@[simp] theorem correct_synd (c : Config) (v : Bits) : (correct c v).synd = syndrome c v := by
  unfold correct; split
  · rfl
  · split <;> rfl

theorem correct_unc (c : Config) (v : Bits) : (correct c v).unc = decide (c.n < syndrome c v) := by
  unfold correct; split
  · simp_all
  · split <;> simp <;> omega

end Sys2Proof.Machine
end

