-- ==== Sys2Proof/Laws/PerInstr.lean ====
section
/-! SUPPORT. A family of statements about each operation as a term: its op value is one of the 18 the operation map assigns. -/

/-- The op value of an operation is not reserved (R56, R57), and its command carries that op value at every configuration. -/
def Sys2Proof.Laws.OpAssigned.Statement (i : Sys2Proof.Instr) : Prop :=
  (Sys2Proof.opOf i).toNat < 0x12 ∧ ∀ c : Sys2Proof.Config, (Sys2Proof.encode c i).op = Sys2Proof.opOf i

namespace Sys2Proof.Laws.OpAssigned

theorem ldcw (v : Bits) : Statement (.ldcw v) := ⟨by simp [opOf], fun _ => rfl⟩
theorem rdcw : Statement .rdcw := ⟨by simp [opOf], fun _ => rfl⟩
theorem clrerr : Statement .clrerr := ⟨by simp [opOf], fun _ => rfl⟩
theorem rderr : Statement .rderr := ⟨by simp [opOf], fun _ => rfl⟩
theorem ser8 (y : List Byte) : Statement (.ser8 y) := ⟨by simp [opOf], fun _ => rfl⟩
theorem des8 (b : Bits) : Statement (.des8 b) := ⟨by simp [opOf], fun _ => rfl⟩
theorem ilv (d : Bits) : Statement (.ilv d) := ⟨by simp [opOf], fun _ => rfl⟩
theorem dlv : Statement .dlv := ⟨by simp [opOf], fun _ => rfl⟩
theorem syn : Statement .syn := ⟨by simp [opOf], fun _ => rfl⟩
theorem synw : Statement .synw := ⟨by simp [opOf], fun _ => rfl⟩
theorem syne : Statement .syne := ⟨by simp [opOf], fun _ => rfl⟩
theorem encb (d : Bits) : Statement (.encb d) := ⟨by simp [opOf], fun _ => rfl⟩
theorem decb (v : Bits) : Statement (.decb v) := ⟨by simp [opOf], fun _ => rfl⟩
theorem encs (b : Bits) : Statement (.encs b) := ⟨by simp [opOf], fun _ => rfl⟩
theorem decs (e : Bits) : Statement (.decs e) := ⟨by simp [opOf], fun _ => rfl⟩
theorem flip1 (r : Nat) : Statement (.flip1 r) := ⟨by simp [opOf], fun _ => rfl⟩
theorem noise1 (b : Bits) (draws : List Nat) : Statement (.noise1 b draws) := ⟨by simp [opOf], fun _ => rfl⟩
theorem noise4 (b : Bits) (draws : List Nat) : Statement (.noise4 b draws) := ⟨by simp [opOf], fun _ => rfl⟩

end Sys2Proof.Laws.OpAssigned
end

