-- ==== Sys2Proof/Tests/Slice0.lean ====
section
/-! SUPPORT. Tests and witnesses. Expected results are the spec's own vectors (95_test_vectors, named in each comment). A bit string is
written as a number, its leftmost digit first (`msb`). -/

namespace Sys2Proof.Tests

open Sys2Proof.Machine

/-- The `w`-bit string written as the binary number `n`, leftmost digit first (R62). -/
def msb (w n : Nat) : Bits := (List.range w).map fun i => n.testBit (w - 1 - i)

/-- The state after `i`, or `s` itself where `i` gives none. -/
def run (i : Instr) (s : State) : State :=
  match exec i s with
  | .next t => t
  | .fault _ => s
  | .refused _ => s

/-- The state after one step. -/
def tick (s : State) : State :=
  match step s with
  | .next t => t
  | .fault _ => s
  | .refused _ => s

/-- The configuration with `MODE = m + 1`, unbounded. -/
def plain (m : Nat) : Config :=
  { mode := m + 1, errw := none, seqmax := none, mode_pos := Nat.succ_pos m, errw_pos := by decide }

/-- `MODE = 8` with a 2-bit counter and sequences of at most 16 bits. -/
def small : Config := { mode := 8, errw := some 2, seqmax := some 16, mode_pos := by decide, errw_pos := by decide }

/-- A block of configuration `c` whose `CW` holds `v`. -/
def holding (c : Config) (v : Bits) : State := { State.resetOf c with cw := v, cwv := true }

/-- A block with the host's moves `ms` to come. -/
def given (ms : List HostMove) : State := { State.reset with inbox := ms }

abbrev c8 : Config := Config.worked
/-- The codeword of 0x41 (V6.3), with position 5 flipped (V5.4), and with positions 5 and 8 flipped (V5.5). -/
abbrev cw41 : Bits := msb 12 0b100010010001
abbrev cw41e5 : Bits := msb 12 0b100000010001
abbrev cw41e58 : Bits := msb 12 0b100000000001
abbrev d41 : Bits := msb 8 0b01000001
/-- The encoded stream of 0x41 0x42 (V6.20). -/
abbrev stream : Bits := msb 24 0b100010010001010110010010

/-! ## Configuration and layout -/

theorem test_parityCount_table : [1, 2, 4, 5, 11, 12, 26, 27, 57, 58, 120, 121, 502, 503].map parityCount =
    [2, 3, 3, 4, 4, 5, 5, 6, 6, 7, 7, 8, 9, 10] := by decide -- V2.1
theorem test_worked_sizes : c8.s = 4 ∧ c8.n = 12 ∧ (plain 42).s = 6 ∧ (plain 42).n = 49 := by decide -- X1, X2
theorem test_dataPos : (List.range' 1 20).map dataPos =
    [3, 5, 6, 7, 9, 10, 11, 12, 13, 14, 15, 17, 18, 19, 20, 21, 22, 23, 24, 25] := by decide -- V4.10
theorem test_cover_17 : cover (plain 11) 2 = [4, 5, 6, 7, 12, 13, 14, 15] ∧ cover (plain 11) 4 = [16, 17] := by decide -- V3.7
theorem test_strip_loop : stripParityLoop c8 (msb 12 0b001011101111) = msb 8 0b11111111 := by decide -- V4.6
theorem test_skeleton_loop : buildSkeletonLoop c8 d41 = msb 12 0b000010000001 := by decide -- V4.1

/-! ## Well-formedness: an ill-formed term for each check -/

theorem ill_ldcw : WellFormed c8 (.ldcw (msb 11 0)) = false := by decide
theorem ill_decb : WellFormed c8 (.decb (msb 13 0)) = false := by decide
theorem ill_ilv : WellFormed c8 (.ilv (msb 9 0)) = false := by decide
theorem ill_encb : WellFormed c8 (.encb (msb 7 0)) = false := by decide
theorem ill_flip1 : WellFormed c8 (.flip1 16) = false := by decide
theorem ill_noise1 : WellFormed c8 (.noise1 [] [3, 16]) = false := by decide
theorem ill_noise4 : WellFormed c8 (.noise4 [] [16]) = false := by decide
theorem well_all : [Instr.ldcw cw41, .rdcw, .clrerr, .rderr, .ser8 [0x41], .des8 d41, .ilv d41, .dlv, .syn, .synw, .syne, .encb d41,
    .decb cw41, .encs d41, .decs cw41, .flip1 15, .noise1 cw41 [15], .noise4 cw41 [0, 1, 2, 15]].all (WellFormed c8) = true := by decide

/-! ## Decoding: one word per operation, op from the operation map (R56), operands in the order of log 4 -/

theorem word_ldcw : decode c8 ⟨0b00000, cw41⟩ = .ok (.ldcw cw41) := by decide
theorem word_rdcw : decode c8 ⟨0b00001, []⟩ = .ok .rdcw := by decide
theorem word_clrerr : decode c8 ⟨0b00010, []⟩ = .ok .clrerr := by decide
theorem word_rderr : decode c8 ⟨0b00011, []⟩ = .ok .rderr := by decide
theorem word_ser8 : decode c8 ⟨0b00100, [true, true, false, false, false, false, false, true, false, false]⟩ =
    .ok (.ser8 [0x41]) := by decide
theorem word_des8 : decode c8 ⟨0b00101, [true, true, true, false, false]⟩ = .ok (.des8 [true, false]) := by decide
theorem word_ilv : decode c8 ⟨0b00110, d41⟩ = .ok (.ilv d41) := by decide
theorem word_dlv : decode c8 ⟨0b00111, []⟩ = .ok .dlv := by decide
theorem word_syn : decode c8 ⟨0b01000, []⟩ = .ok .syn := by decide
theorem word_synw : decode c8 ⟨0b01001, []⟩ = .ok .synw := by decide
theorem word_syne : decode c8 ⟨0b01010, []⟩ = .ok .syne := by decide
theorem word_encb : decode c8 ⟨0b01011, d41⟩ = .ok (.encb d41) := by decide
theorem word_decb : decode c8 ⟨0b01100, cw41e5⟩ = .ok (.decb cw41e5) := by decide
theorem word_encs : decode c8 ⟨0b01101, [true, false, true, true, false]⟩ = .ok (.encs [false, true]) := by decide
theorem word_decs : decode c8 ⟨0b01110, [true, true, false]⟩ = .ok (.decs [true]) := by decide
theorem word_flip1 : decode c8 ⟨0b01111, [false, false, true, false]⟩ = .ok (.flip1 4) := by decide -- PRG1 step 4, r = 0100
theorem word_noise1 : decode c8 ⟨0b10000, [true, true, false, true, false, false, true, false, false]⟩ =
    .ok (.noise1 [true] [4]) := by decide
theorem word_noise4 : decode c8 ⟨0b10001, [false, true, true, true, false, true, false]⟩ = .ok (.noise4 [] [11]) := by decide
theorem word_reserved : decode c8 ⟨0b10010, []⟩ = .error (.reservedOp 0b10010) ∧
    decode c8 ⟨0b11111, cw41⟩ = .error (.reservedOp 0b11111) := by decide
theorem word_short : decode c8 ⟨0b00000, msb 11 0⟩ = .error .shortOperand ∧ decode c8 ⟨0b00100, [true]⟩ = .error .shortOperand := by
  decide
theorem table_words : decodeTableWord 8 0x00 = some (.ldcw (msb 12 0)) ∧ decodeTableWord 8 0x04 = some (.ser8 []) ∧
    decodeTableWord 8 0x0F = some (.flip1 0) ∧ decodeTableWord 8 0x11 = some (.noise4 [] []) ∧ decodeTableWord 8 0x12 = none := by decide

/-! ## One step on a small state -/

theorem test_ldcw : (run (.ldcw cw41e5) State.reset).cw = cw41e5 ∧ (run (.ldcw cw41e5) State.reset).cwv = true := by decide -- V8.3
theorem test_ldcw_short : (run (.ldcw (msb 11 0)) State.reset).rsp = some (.refused 2) := by decide -- R58 (d)
theorem test_rdcw : (run .rdcw (holding c8 cw41)).rsp = some (.ok (.codeword cw41)) := by decide -- R151
theorem test_rdcw_noval : (run .rdcw State.reset).rsp = some (.refused 4) ∧ (run .rdcw State.reset).cmderr = true ∧
    (run .rdcw State.reset).errcode = 4 := by decide -- V8.2
theorem test_clrerr : (run .clrerr { run .rdcw State.reset with errcnt := 3 }).errcnt = 0 ∧
    (run .clrerr (run .rdcw State.reset)).cmderr = true := by decide -- R152, V8.9
theorem test_rderr : (run .rderr State.reset).rsp = some (.ok (.status 0 false 0)) ∧
    (run .rderr (run .rdcw State.reset)).rsp = some (.ok (.status 0 true 4)) := by decide -- V8.1, V8.2
theorem test_ser8 : (run (.ser8 [0x41, 0x42]) State.reset).rsp = some (.ok (.bits (msb 16 0b0100000101000010))) := by decide -- V1.6
theorem test_ser8_ends : (run (.ser8 [0x80, 0x01]) State.reset).rsp = some (.ok (.bits (msb 16 0b1000000000000001))) := by
  decide -- V1.4, V1.5
theorem test_des8 : (run (.des8 (msb 16 0b0100000101000010)) State.reset).rsp = some (.ok (.bytes [0x41, 0x42])) := by decide -- V1.9
theorem test_des8_seven : (run (.des8 (msb 7 0b0100000)) State.reset).errcode = 2 := by decide -- V1.10
theorem test_ilv : (run (.ilv d41) State.reset).cw = msb 12 0b000010000001 := by decide -- V4.1
theorem test_ilv_17 : (run (.ilv (msb 12 0b010010000110)) (State.resetOf (plain 11))).cw = msb 17 0b00001000100001100 := by
  decide -- V4.9
theorem test_dlv : (run .dlv (holding c8 cw41)).rsp = some (.ok (.block d41)) := by decide -- V4.4
theorem test_dlv_parity_ignored : (run .dlv (holding c8 (msb 12 0b111011101111))).rsp = some (.ok (.block (msb 8 255))) := by
  decide -- V4.5
theorem test_syn : (run .syn (holding c8 cw41e5)).rsp = some (.ok (.syndrome 5)) := by decide -- V5.4
theorem test_syn_out_of_range : (run .syn (holding c8 cw41e58)).rsp = some (.ok (.syndrome 13)) := by decide -- V5.5
theorem test_synw : (run .synw (holding c8 (msb 12 0b000010000001))).cw = cw41 := by decide -- V5.10
theorem test_synw_on_filled_slots : (run .synw (holding c8 (msb 12 0b110010000001))).cw = msb 12 0b010010010001 := by
  decide -- V5.12
theorem test_syne : (run .syne (holding c8 cw41e5)).rsp = some (.ok (.evaluation 5 false)) ∧
    (run .syne (holding c8 cw41e5)).cw = cw41 := by decide -- V5.4
theorem test_syne_saturates : (run .syne { holding small cw41e58 with errcnt := 3 }).errcnt = 3 ∧
    (run .syne { holding small cw41e58 with errcnt := 3 }).rsp = some (.ok (.evaluation 13 true)) := by decide -- V5.44
theorem test_encb : (run (.encb (msb 8 0b01000010)) State.reset).rsp = some (.ok (.codeword (msb 12 0b010110010010))) := by
  decide -- V6.4
theorem test_encb_mode4 : (run (.encb (msb 4 0b1011)) (State.resetOf (plain 3))).cw = msb 7 0b0110011 := by decide -- PRG7
theorem test_decb : (run (.decb cw41e5) State.reset).rsp = some (.ok (.decoded d41 5 false)) ∧
    (run (.decb cw41e5) State.reset).cw = cw41 := by decide -- V6.11
theorem test_decb_uncorrectable : (run (.decb cw41e58) State.reset).rsp = some (.ok (.decoded (msb 8 0b00000001) 13 true)) ∧
    (run (.decb cw41e58) State.reset).errcnt = 1 := by decide -- V6.11
theorem test_encs_pads : (run (.encs (msb 7 0b0100000)) State.reset).rsp = some (.ok (.bits (msb 12 0b100110000000))) := by
  decide -- V6.38
theorem test_encs_clears_cwv : (run (.encs (msb 16 0b0100000101000010)) (holding c8 cw41)).rsp = some (.ok (.bits stream)) ∧
    (run (.encs (msb 16 0b0100000101000010)) (holding c8 cw41)).cwv = false := by decide -- V6.20, V8.10
theorem test_decs_counts : (run (.decs (msb 36 0b100000000001011110010011110010000011)) State.reset).rsp =
    some (.ok (.message [0x01, 0xC3, 0x43] 2)) := by decide -- V6.32
theorem test_decs_sets : (run (.decs (stream ++ msb 5 0b10101)) { State.reset with errcnt := 7 }).rsp =
    some (.ok (.message [0x41, 0x42] 0)) ∧
    (run (.decs (stream ++ msb 5 0b10101)) { State.reset with errcnt := 7 }).errcnt = 0 := by decide -- V6.30, V6.37
theorem test_decs_other_mode : (run (.decs stream) (State.resetOf (plain 3))).rsp = some (.ok (.message [0x4D] 0)) := by
  decide -- V6.12
theorem test_flip1 : (run (.flip1 11) (holding c8 cw41)).cw = msb 12 0b100010010000 := by decide -- V7.3
theorem test_flip1_priority : (run (.flip1 12) State.reset).errcode = 3 ∧ (run (.flip1 11) State.reset).errcode = 4 := by
  decide -- V8.6
theorem test_noise1 : (run (.noise1 (stream ++ msb 5 0b10101) [11, 11, 5]) State.reset).rsp =
    some (.ok (.bits (msb 24 0b100010010000010110010011))) := by decide -- V7.5
theorem test_noise1_refusals : (run (.noise1 cw41 [12]) State.reset).errcode = 3 ∧ (run (.noise1 stream [12]) State.reset).errcode = 2 ∧
    (run (.noise1 stream [12]) (holding c8 cw41)).cwv = true := by decide -- V8.7, PRG5
theorem test_noise4 : (run (.noise4 cw41 [4, 7, 4, 0]) State.reset).rsp = some (.ok (.bits (msb 12 0b000000000001))) := by
  decide -- V7.8
theorem test_noise4_refusals : (run (.noise4 stream [1, 2, 3, 4, 5, 6, 7]) State.reset).errcode = 2 ∧
    (run (.noise4 cw41 [0, 1, 2, 12]) State.reset).errcode = 3 := by decide -- V7.13
theorem test_seqmax : (run (.ser8 [1, 2, 3]) (State.resetOf small)).errcode = 2 ∧
    (run (.encs (msb 16 0)) (State.resetOf small)).errcode = 2 ∧ (run (.encs (msb 8 0)) (State.resetOf small)).errcode = 0 := by
  decide -- R38: 24 bits; a 24-bit result; a 12-bit result

/-! ## The step -/

theorem test_step_command : (tick (given [.command ⟨0b01011, d41⟩])).rsp = some (.ok (.codeword cw41)) ∧
    (tick (given [.command ⟨0b01011, d41⟩])).inbox = [] := by decide -- PRG1
theorem test_step_reserved : (tick (given [.command ⟨0b11111, []⟩])).rsp = some (.refused 1) ∧
    (tick (given [.command ⟨0b11111, []⟩])).errcode = 1 := by decide -- V8.5
theorem test_step_short : (tick (given [.command ⟨0b00000, []⟩])).errcode = 2 := by decide -- log 5
theorem test_step_reset : (tick { run .rdcw State.reset with inbox := [.reset] }).cmderr = false ∧
    (tick { holding c8 cw41 with inbox := [.reset] }).cwv = false := by decide -- R180
theorem test_step_idle : tick State.reset = State.reset := rfl -- R180
theorem test_step_table_word : (tick (State.reset.withFetchWord 8 0x0B)).rsp = some (.ok (.codeword (msb 12 0))) := by decide

/-! ## Witnesses: for each statement with hypotheses, states and operands that meet them, one for each clause -/

theorem witness_LdcwLoadsTheCodewordRegister : cw41.length = State.reset.cfg.n ∧ (msb 11 0).length ≠ State.reset.cfg.n := by decide
theorem witness_RdcwReadsTheCodewordRegister : (holding c8 cw41).cwv = true ∧ State.reset.cwv = false ∧ isStream (.encs []) = true ∧
    exec (.encs []) (holding c8 cw41) = .next (run (.encs []) (holding c8 cw41)) ∧
    (run (.encs []) (holding c8 cw41)).rsp = some (.ok (.bits [])) := ⟨rfl, rfl, rfl, rfl, rfl⟩
theorem witness_RderrReadsTheStatus : small.errw = some 2 ∧ saturate small 3 = 2 ^ 2 - 1 := by decide
theorem witness_CounterSaturatesAndHasFourWriters : c8.errw = none ∧ small.errw = some 2 ∧ (holding c8 cw41e58).cwv = true ∧
    cw41e58.length = State.reset.cfg.n ∧ WithinSeqmax small (msb 16 0).length ∧
    writesErrcnt .rdcw = false ∧ exec .rdcw (holding c8 cw41) = .next (run .rdcw (holding c8 cw41)) :=
  ⟨rfl, rfl, rfl, by decide, by decide, rfl, rfl⟩
theorem witness_PaddingSegmentingAndTruncating : 1 ≤ 5 ∧ (msb 10 0).length % 5 = 0 ∧ 1 < stream.length / c8.n ∧
    cw41 ∈ segment stream 12 := by decide
theorem witness_Ser8SerialisesMostSignificantBitFirst : [0x41#8, 0x42#8][1]? = some 0x42#8 ∧ WithinSeqmax small (8 * 2) ∧
    ¬WithinSeqmax small (8 * 3) := by decide
theorem witness_BitsToBytesInvertsBytesToBits : d41.length % 8 = 0 ∧ 0 < d41.length / 8 := by decide
theorem witness_Des8DeserialisesWholeBytes : (msb 7 0).length % 8 ≠ 0 ∧ (msb 16 0).length % 8 = 0 ∧
    WithinSeqmax small (msb 16 0).length := by decide
theorem witness_ParityCountIsTheLeastAndTheClosedForm : 1 ≤ 1 ∧ 1 < parityCount 1 := by decide
theorem witness_LayoutBoundsHold : 3 < c8.s ∧ 12 ∈ positions c8.n ∧ 13 ≠ 0 ∧ 13 < 2 ^ c8.s := by decide
theorem witness_DataPositionsInOrder : 1 ≤ 1 ∧ 2 < parityCount 2 ∧ 1 ≤ 3 ∧ isParityPos 3 = false := by decide
theorem witness_SkeletonLoopIsTheClosedForm : d41.length = c8.mode ∧ 3 < c8.s ∧ 8 ≤ c8.mode := by decide
theorem witness_StripLoopIsTheClosedForm : cw41.length = c8.n ∧ 8 ≤ c8.mode ∧ (msb 12 0b000010000001).length = c8.n ∧
    ∀ p ∈ positions c8.n, isParityPos p = false → bitAt (msb 12 0b000010000001) p = bitAt cw41 p := by decide
theorem witness_LayoutInverseLaw : d41.length = c8.mode ∧ cw41.length = c8.n ∧ d41.length = State.reset.cfg.mode := by decide
theorem witness_IlvBuildsTheSkeleton : d41.length = State.reset.cfg.mode ∧ (msb 9 0).length ≠ State.reset.cfg.mode := by decide
theorem witness_DlvReadsTheDataSlots : (holding c8 cw41).cwv = true ∧ State.reset.cwv = false := by decide
theorem witness_CoverageSets : 3 < c8.s ∧ 12 ∈ positions c8.n ∧ isParityPos 12 = false ∧ c8.n = 12 := by decide
theorem witness_SyndromeIsTheXorOfSetPositions : 3 < c8.s := by decide
theorem witness_SyndromeIsLinear : cw41.length = c8.n ∧ cw41e5.length = c8.n ∧ 1 ≤ 12 ∧ 12 ≤ c8.n ∧ ValidCodeword c8 cw41 ∧
    ErrorPattern c8 [1, 12] := by decide
theorem witness_WriteParityLoopIsTheClosedForm : cw41.length = c8.n ∧ 3 < c8.s ∧ 12 ∈ positions c8.n ∧ isParityPos 12 = false ∧
    d41.length = c8.mode := by decide
theorem witness_EncoderParityEquations : d41.length = c8.mode ∧ 3 < c8.s ∧ c8.mode = 8 := by decide
theorem witness_CorrectHasThreeCases : cw41.length = c8.n ∧ syndrome c8 cw41 = 0 ∧
    (msb 12 1).length = c8.n ∧ 1 ≤ syndrome c8 (msb 12 1) ∧ syndrome c8 (msb 12 1) ≤ c8.n ∧
    cw41e58.length = c8.n ∧ c8.n < syndrome c8 cw41e58 := by decide
theorem witness_SyndromeValueSpace : (plain 3).n = 2 ^ (plain 3).s - 1 ∧ (plain 3).mode ∈ [1, 4, 11, 26, 57, 120, 247] ∧ c8.mode = 8 ∧
    (plain 42).mode = 43 := by decide
theorem witness_SynComputesTheSyndrome : (holding c8 cw41).cwv = true ∧ State.reset.cwv = false ∧ d41.length = c8.mode ∧ 3 < c8.s ∧
    ValidCodeword c8 cw41 := by decide
theorem witness_SynwFillsTheParitySlots : (holding c8 cw41).cwv = true ∧ State.reset.cwv = false ∧ cw41.length = c8.n ∧
    3 ∈ positions c8.n ∧ isParityPos 3 = false ∧ d41.length = State.reset.cfg.mode := by decide
theorem witness_SyneCorrectsAndCounts : (holding c8 cw41e5).cwv = true ∧ State.reset.cwv = false ∧ ValidCodeword c8 cw41 ∧
    (holding c8 (msb 12 0b100010010000)).cw = flipPositions cw41 [12] ∧
    syndrome c8 (holding c8 cw41e5).cw ≤ c8.n ∧ c8.n < syndrome c8 (holding c8 cw41e58).cw ∧
    (holding c8 cw41e58).cw.length = c8.n := by decide
theorem witness_SingleErrorIsCorrected : ValidCodeword c8 cw41 ∧ 1 ≤ 12 ∧ 12 ≤ c8.n ∧ (msb 12 0b000010000001).length = c8.n := by decide
theorem witness_MultipleErrorsAreMiscorrectedOrReported : ValidCodeword c8 cw41 ∧ ErrorPattern c8 [1, 2, 3] ∧ ErrorPattern c8 [11, 12] ∧
    11 ^^^ 12 ≤ c8.n ∧ ErrorPattern c8 [5, 8] ∧ c8.n < 5 ^^^ 8 ∧ (plain 3).n = 2 ^ (plain 3).s - 1 := by decide
theorem witness_EncoderOutputIsValidAndLinear : d41.length = c8.mode ∧ (msb 8 0xA5).length = c8.mode := by decide
theorem witness_EncbEncodesOneBlock : d41.length = State.reset.cfg.mode ∧ (msb 7 0).length ≠ State.reset.cfg.mode ∧
    12 ∈ positions State.reset.cfg.n ∧ isParityPos 12 = false := by decide
theorem witness_DecbDecodesOneCodeword : cw41.length = State.reset.cfg.n ∧ (msb 13 0).length ≠ State.reset.cfg.n ∧
    d41.length = State.reset.cfg.mode ∧ 12 ≤ State.reset.cfg.n ∧ ErrorPattern State.reset.cfg [1, 2] ∧ 1 ^^^ 2 ≤ State.reset.cfg.n ∧
    ErrorPattern State.reset.cfg [5, 8] ∧ State.reset.cfg.n < 5 ^^^ 8 := by decide
theorem witness_EncsEncodesTheStream : 2 = ((msb 9 0).length + c8.mode - 1) / c8.mode ∧ WithinSeqmax small (msb 8 0).length ∧
    WithinSeqmax small (1 * small.n) ∧ ¬(WithinSeqmax small (msb 16 0).length ∧ WithinSeqmax small (2 * small.n)) := by decide
theorem witness_DecsDecodesTheStream : WithinSeqmax c8 stream.length ∧ ¬WithinSeqmax small stream.length ∧
    (msb 11 0).length < c8.n ∧ ∃ (K : Nat) (w : Nat → Bits) (data : Bits) (u : Nat),
      K = stream.length / c8.n ∧ (w = fun k => (stream.drop (k * c8.n)).take c8.n) ∧
      data = ((List.range K).map fun k => (decodeCodeword c8 (w k)).data).flatten ∧
      u = ∑ k ∈ Finset.range K, (decodeCodeword c8 (w k)).unc.toNat :=
  ⟨by decide, by decide, by decide, _, _, _, _, rfl, rfl, rfl, rfl⟩
theorem witness_StreamRoundTrip : State.reset.cfg.seqmax = none ∧ 2 = (8 * [0x41#8, 0x42#8].length + c8.mode - 1) / c8.mode := by decide
theorem witness_StreamWithOneErrorPerCodeword : (msb 24 0b100000010001110110010010).length = (encodeStream c8 (msb 16 0x4142)).length ∧
    List.Forall₂ (fun w w' => w' = w ∨ ∃ r, r < c8.n ∧ w' = flipAt w r) (segment (encodeStream c8 (msb 16 0x4142)) c8.n)
      (segment (msb 24 0b100000010001110110010010) c8.n) ∧
    stream.length / c8.n ≤ [4, 0].length ∧ (∀ r ∈ [4, 0].take (stream.length / c8.n), r < c8.n) ∧ 1 < stream.length / c8.n ∧
    (encodeStream c8 (msb 16 0x4142)).length / c8.n ≤ [4, 0].length :=
  ⟨by decide,
    .cons (.inr ⟨4, by decide, by decide⟩) (.cons (.inr ⟨0, by decide, by decide⟩) .nil),
    by decide, by decide, by decide, by decide⟩
theorem witness_CodewordsAreIndependent : (msb 16 0).length % c8.mode = 0 ∧ stream.length % c8.n = 0 ∧
    [4, 0].length = stream.length / c8.n ∧ [4, 7, 4, 0, 1, 2, 3, 11].length = 4 * (stream.length / c8.n) := by decide
theorem witness_StreamLengths : d41.length % 8 = 0 ∧ stream.length / c8.n ≤ [4, 0].length ∧
    4 * (cw41.length / c8.n) ≤ [4, 7, 4, 0].length ∧ 3 = (8 * [0x41#8, 0x42#8, 0x43#8].length + c8.mode - 1) / c8.mode := by decide
theorem witness_FlipAtChangesOneBit : 11 < cw41.length ∧ cw41[11]? = some true := by decide
theorem witness_Flip1FlipsOneBit : State.reset.cfg.n ≤ 12 ∧ 11 < State.reset.cfg.n ∧ State.reset.cwv = false ∧
    (holding c8 cw41).cwv = true ∧ (holding c8 cw41).cw.length = c8.n ∧ ValidCodeword c8 cw41 := by decide
theorem witness_Noise1FlipsOneBitPerCodeword : 2 = stream.length / c8.n ∧ WithinSeqmax c8 stream.length ∧ 2 ≤ [11, 0].length ∧
    (∀ r ∈ [11, 0].take 2, r < c8.n) ∧ [4].length < 2 ∧ (∃ r ∈ [4, 12].take 2, c8.n ≤ r) ∧
    ¬WithinSeqmax small stream.length := by decide
theorem witness_Noise4FlipsUpToFourBitsPerCodeword : 1 = cw41.length / c8.n ∧ WithinSeqmax c8 cw41.length ∧
    4 * 1 ≤ [4, 7, 4, 11].length ∧ (∀ r ∈ [4, 7, 4, 11].take (4 * 1), r < c8.n) ∧ cw41[4]? = some true ∧
    [1, 2, 3].length < 4 * 1 ∧ (∃ r ∈ [0, 1, 2, 12].take (4 * 1), c8.n ≤ r) ∧ ¬WithinSeqmax small stream.length := by decide
theorem witness_RefusalIsPrecise : exec .rdcw State.reset = .next (run .rdcw State.reset) ∧
    exec .rdcw (holding c8 cw41) = .next (run .rdcw (holding c8 cw41)) ∧ Instr.rdcw ≠ .rderr := ⟨rfl, rfl, by decide⟩
theorem witness_RefusalCodesCausesAndPriority :
    LengthFault c8 (.ldcw []) ∧ (¬LengthFault c8 (.flip1 12) ∧ PositionFault c8 (.flip1 12)) ∧
    (¬LengthFault c8 .dlv ∧ ¬PositionFault c8 .dlv ∧ readsCw .dlv = true ∧ State.reset.cwv = false) ∧
    (¬LengthFault c8 (.flip1 11) ∧ ¬PositionFault c8 (.flip1 11) ∧ (holding c8 cw41).cwv = true) ∧
    (given [.command ⟨0x12, []⟩]).inbox = .command ⟨0x12, []⟩ :: [] ∧ 0x12 ≤ (0x12#5).toNat := by
  refine ⟨?_, ⟨id, ?_⟩, ⟨id, id, rfl, rfl⟩, ⟨id, ?_, rfl⟩, rfl, by decide⟩
  · show ([] : Bits).length ≠ c8.n; decide
  · show c8.n ≤ 12; decide
  · show ¬c8.n ≤ 11; decide
theorem witness_ReservedOpIsRefused : (given [.command ⟨0x1F, []⟩]).inbox = .command ⟨0x1F, []⟩ :: [] ∧ 0x12 ≤ (0x1F#5).toNat ∧
    ∃ i, decode c8 ⟨0x11, [false, false]⟩ = .ok i := ⟨rfl, by decide, _, rfl⟩
theorem witness_CmderrIsSticky :
    step { run .rdcw State.reset with inbox := [.command ⟨0x02, []⟩] } =
      .next (tick { run .rdcw State.reset with inbox := [.command ⟨0x02, []⟩] }) ∧
    ({ run .rdcw State.reset with inbox := [.command ⟨0x02, []⟩] } : State).inbox.head? ≠ some .reset ∧
    (run .rdcw State.reset).cmderr = true ∧ (given [.reset]).inbox = .reset :: [] ∧
    (given [.command ⟨0x1F, []⟩]).inbox = .command ⟨0x1F, []⟩ :: [] ∧
    step (given [.command ⟨0x1F, []⟩]) = .next (tick (given [.command ⟨0x1F, []⟩])) ∧
    (tick (given [.command ⟨0x1F, []⟩])).rsp = some (.refused 1) := ⟨rfl, by decide, by decide, rfl, rfl, rfl, rfl⟩
theorem witness_AccessTable :
    exec .rdcw State.reset = .next (run .rdcw State.reset) ∧ (run .rdcw State.reset).rsp = some (.refused 4) ∧
    exec .syne (holding c8 cw41e5) = .next (run .syne (holding c8 cw41e5)) ∧
    (run .syne (holding c8 cw41e5)).rsp = some (.ok (.evaluation 5 false)) ∧ (holding c8 cw41e5).cw.length = c8.n ∧
    exec (.encs []) State.reset = .next (run (.encs []) State.reset) ∧ (run (.encs []) State.reset).rsp = some (.ok (.bits [])) ∧
    exec (.ilv d41) State.reset = .next (run (.ilv d41) State.reset) ∧ (run (.ilv d41) State.reset).rsp = some (.ok .done) :=
  ⟨rfl, rfl, rfl, by decide, by decide, rfl, rfl, rfl, rfl⟩
theorem witness_CwvGuardsEveryReadOfCw :
    exec (.ilv d41) State.reset = .next (run (.ilv d41) State.reset) ∧ (run (.ilv d41) State.reset).rsp = some (.ok .done) ∧
    readsCw (.flip1 11) = true ∧ State.reset.cwv = false ∧ ∀ r, Instr.flip1 11 = .flip1 r → r < State.reset.cfg.n :=
  ⟨rfl, rfl, rfl, rfl, fun r h => by injection h with h; subst h; decide⟩
theorem witness_ResetGivesTheResetValues : (given [.reset]).inbox = .reset :: [] := rfl
theorem witness_ResultsDependOnOperandsAlone : State.reset.cfg = (holding c8 cw41).cfg ∧ readsCw (.decb cw41) = false ∧
    Instr.decb cw41 ≠ .rderr := by decide
theorem witness_SynwHazard : d41.length = State.reset.cfg.mode ∧ ValidCodeword State.reset.cfg cw41 ∧ cw41.length = c8.n ∧
    3 < State.reset.cfg.s := by decide
theorem witness_ResponsesFollowTheTable : (holding c8 cw41).Inv ∧
    exec .rdcw (holding c8 cw41) = .next (run .rdcw (holding c8 cw41)) := ⟨by decide, rfl⟩
theorem witness_StepRunsTheDecodedOperation : (given [.command ⟨0x0A, []⟩]).inbox = .command ⟨0x0A, []⟩ :: [] ∧
    decode (given [.command ⟨0x0A, []⟩]).cfg ⟨0x0A, []⟩ = .ok .syne ∧ State.reset.inbox = [] := ⟨rfl, rfl, rfl⟩
theorem witness_DecodeInvertsEncode : WellFormed c8 (.noise4 cw41 [0, 15]) = true := by decide
theorem witness_DecodedIsWellFormedAndReencodes : decode c8 ⟨0x0F, [true, true, true, true, false]⟩ = .ok (.flip1 15) := by decide
theorem witness_StepKeepsInvariant : State.reset.Inv ∧ (given [.command ⟨0x0B, d41⟩]).Inv ∧
    step (given [.command ⟨0x0B, d41⟩]) = .next (tick (given [.command ⟨0x0B, d41⟩])) := ⟨by decide, by decide, rfl⟩

end Sys2Proof.Tests
end

/-! PROOF. The state family (10_state R12, R13, R15, R18, R19). Every operation is one precondition check followed by one whole
effect: `refusalCause`, `resultOf` and `effectOf` name the three parts, `exec_eq_checked` ties them to `exec`, and the proofs go through
the lemmas about them. -/

namespace Sys2Proof.Machine

/-! ## An operation is a check, an effect and a result -/

/-- The cause for which an operation is refused, or none: its preconditions in their priority (R58, R12, R38, R167). -/
def refusalCause (i : Instr) (s : State) : Option Cause :=
  match i with
  | .clrerr | .rderr => none
  | .ldcw v | .decb v => codewordError s.cfg v
  | .ilv d | .encb d => blockError s.cfg d
  | .rdcw | .dlv | .syn | .synw | .syne => noValueError s
  | .flip1 r => (drawRangeError s.cfg [r]).or (noValueError s)
  | .ser8 y => sequenceError s.cfg (8 * y.length) (bytesToBits y).length
  | .des8 b => (sequenceError s.cfg b.length (8 * (bitsToBytes b).length)).or (wholeByteError b)
  | .encs b => sequenceError s.cfg b.length (encodeStream s.cfg b).length
  | .decs e => sequenceError s.cfg e.length (8 * (decodeStream s.cfg e).length)
  | .noise1 b draws =>
    (sequenceError s.cfg b.length (noiseOne s.cfg b draws).length).or
      ((drawCountError (b.length / s.cfg.n) draws).or (drawRangeError s.cfg (draws.take (b.length / s.cfg.n))))
  | .noise4 b draws =>
    (sequenceError s.cfg b.length (noiseFour s.cfg b draws).length).or
      ((drawCountError (4 * (b.length / s.cfg.n)) draws).or
        (drawRangeError s.cfg (draws.take (4 * (b.length / s.cfg.n)))))

/-- What an operation that is not refused delivers (R55). -/
def resultOf (i : Instr) (s : State) : Result :=
  match i with
  | .ldcw _ | .clrerr | .ilv _ | .synw | .flip1 _ => .done
  | .rdcw => .codeword s.cw
  | .rderr => .status s.errcnt s.cmderr s.errcode
  | .ser8 y => .bits (bytesToBits y)
  | .des8 b => .bytes (bitsToBytes b)
  | .dlv => .block (stripParity s.cfg s.cw)
  | .syn => .syndrome (syndrome s.cfg s.cw)
  | .syne => .evaluation (correct s.cfg s.cw).synd (correct s.cfg s.cw).unc
  | .encb d => .codeword (encodeBlock s.cfg d)
  | .decb v => .decoded (decodeCodeword s.cfg v).data (decodeCodeword s.cfg v).synd (decodeCodeword s.cfg v).unc
  | .encs b => .bits (encodeStream s.cfg b)
  | .decs e => .message (decodeStream s.cfg e) (saturate s.cfg (uncorrectable s.cfg e))
  | .noise1 b draws => .bits (noiseOne s.cfg b draws)
  | .noise4 b draws => .bits (noiseFour s.cfg b draws)

/-- What an operation that is not refused writes, before its response is delivered (R18). -/
def effectOf (i : Instr) (s : State) : State :=
  match i with
  | .rdcw | .rderr | .ser8 _ | .des8 _ | .dlv | .syn => s
  | .clrerr => clearErrors s
  | .ldcw v => setCw v s
  | .ilv d => setCw (buildSkeleton s.cfg d) s
  | .encb d => setCw (encodeBlock s.cfg d) s
  | .decb v => addErrors (decodeCodeword s.cfg v).unc.toNat (setCw (correct s.cfg v).cw s)
  | .synw => updateCw (writeParity s.cfg s.cw) s
  | .syne => addErrors (correct s.cfg s.cw).unc.toNat (updateCw (correct s.cfg s.cw).cw s)
  | .flip1 r => updateCw (flipAt s.cw r) s
  | .encs _ | .noise1 _ _ | .noise4 _ _ => dropCw s
  | .decs e => setErrors (uncorrectable s.cfg e) (dropCw s)

/-- The state in which an operation that is not refused ends. -/
def completed (i : Instr) (s : State) : State := respond (resultOf i s) (effectOf i s)

/-- Every operation first checks, then completes as a whole (R165). -/
theorem exec_eq_checked (i : Instr) (s : State) : exec i s = checked (refusalCause i s) s (completed i s) := by
  cases i <;> rfl

theorem exec_of_refusalCause_some {i : Instr} {s : State} {e : Cause} (h : refusalCause i s = some e) :
    exec i s = .next (refuse e s) := by
  rw [exec_eq_checked, h, checked_some]

theorem exec_of_refusalCause_none {i : Instr} {s : State} (h : refusalCause i s = none) :
    exec i s = .next (completed i s) := by
  rw [exec_eq_checked, h, checked_none]

/-- Everything an operation can do: be refused, or complete. -/
theorem exec_cases {i : Instr} {s t : State} (h : exec i s = .next t) :
    (∃ e, refusalCause i s = some e ∧ t = refuse e s) ∨ (refusalCause i s = none ∧ t = completed i s) :=
  checked_cases (exec_eq_checked i s ▸ h)

@[simp] theorem completed_rsp (i : Instr) (s : State) : (completed i s).rsp = some (.ok (resultOf i s)) := rfl

/-- An operation that answers with a code has been refused with a cause of that code. -/
theorem exec_answers_refused {i : Instr} {s t : State} {code : BitVec 3} (h : exec i s = .next t)
    (hr : t.rsp = some (.refused code)) : ∃ e : Cause, e.code = code ∧ t = refuse e s := by
  obtain ⟨e, -, rfl⟩ | ⟨-, rfl⟩ := exec_cases h
  · exact ⟨e, by simpa using hr, rfl⟩
  · simp at hr

/-- An operation that answers ok has passed its checks and completed. -/
theorem exec_answers_ok {i : Instr} {s t : State} {r : Result} (h : exec i s = .next t)
    (hr : t.rsp = some (.ok r)) : refusalCause i s = none ∧ t = completed i s := by
  obtain ⟨e, -, rfl⟩ | hdone := exec_cases h
  · simp at hr
  · exact hdone

/-! ## What a completed operation writes, field by field (R18) -/

@[simp] theorem completed_cfg (i : Instr) (s : State) : (completed i s).cfg = s.cfg := by cases i <;> rfl

@[simp] theorem completed_cmderr (i : Instr) (s : State) : (completed i s).cmderr = s.cmderr := by cases i <;> rfl

@[simp] theorem completed_errcode (i : Instr) (s : State) : (completed i s).errcode = s.errcode := by cases i <;> rfl

@[simp] theorem completed_cwv (i : Instr) (s : State) :
    (completed i s).cwv = if suppliesCw i then true else if isStream i then false else s.cwv := by
  cases i <;> rfl

/-- No operation both gives `CW` a value and leaves it without one. -/
theorem suppliesCw_of_isStream {i : Instr} (h : isStream i = true) : suppliesCw i = false := by
  cases i with
  | encs | decs | noise1 | noise4 => rfl
  | _ => simp [isStream] at h

/-- The classes `suppliesCw`, `editsCw` and `isStream` hold every operation that writes `CW`. -/
theorem completed_cw_of_not_writer {i : Instr} (s : State) (hsup : suppliesCw i = false) (hedit : editsCw i = false)
    (hstream : isStream i = false) : (completed i s).cw = s.cw := by
  cases i with
  | ldcw | ilv | encb | decb => simp [suppliesCw] at hsup
  | synw | syne | flip1 => simp [editsCw] at hedit
  | encs | decs | noise1 | noise4 => simp [isStream] at hstream
  | _ => rfl

theorem completed_errcnt_of_not_writer {i : Instr} (s : State) (h : writesErrcnt i = false) :
    (completed i s).errcnt = s.errcnt := by
  cases i with
  | clrerr | syne | decb | decs => simp [writesErrcnt] at h
  | _ => rfl

/-- No operation writes `ERRCNT` but the four writers, refused or not. -/
theorem exec_errcnt_of_not_writer {i : Instr} {s t : State} (hw : writesErrcnt i = false) (h : exec i s = .next t) :
    t.errcnt = s.errcnt := by
  obtain ⟨e, -, rfl⟩ | ⟨-, rfl⟩ := exec_cases h
  · rfl
  · exact completed_errcnt_of_not_writer s hw

/-! ## The guard on reading `CW` (R12) -/

/-- A reading operation whose draw, if it has one, is in range is refused for nothing but a missing value. -/
theorem refusalCause_of_readsCw {i : Instr} {s : State} (hread : readsCw i = true)
    (hdraw : ∀ r, i = .flip1 r → r < s.cfg.n) : refusalCause i s = noValueError s := by
  cases i with
  | rdcw | dlv | syn | synw | syne => rfl
  | flip1 r =>
    have hrange : drawRangeError s.cfg [r] = none := drawRangeError_eq_none.2 (by simpa using hdraw r rfl)
    simp [refusalCause, hrange]
  | _ => simp [readsCw] at hread

theorem refusalCause_flip1_eq_none {r : Nat} {s : State} :
    refusalCause (.flip1 r) s = none ↔ r < s.cfg.n ∧ s.cwv = true := by
  simp [refusalCause, drawRangeError_eq_none, noValueError_eq_none]

/-- A reading operation that passes its checks has found a value in `CW`. -/
theorem cwv_of_readsCw {i : Instr} {s : State} (hread : readsCw i = true) (h : refusalCause i s = none) :
    s.cwv = true := by
  have hdraw : ∀ r, i = .flip1 r → r < s.cfg.n := by
    rintro r rfl
    exact (refusalCause_flip1_eq_none.1 h).1
  rw [refusalCause_of_readsCw hread hdraw] at h
  exact noValueError_eq_none.1 h

/-! ## The counter (R13) -/

/-- A saturated count is 0 only when nothing was counted: `ERRW` is at least 1. -/
theorem saturate_eq_zero_iff {c : Config} {k : Nat} : saturate c k = 0 ↔ k = 0 := by
  have hpos := c.errw_pos
  cases hw : c.errw with
  | none => rw [saturate_unbounded hw]
  | some w =>
    have h2 : 2 ≤ 2 ^ w := Nat.le_self_pow (by simp [hw] at hpos; omega) 2
    rw [saturate_bounded hw]
    omega

theorem correct_unc_toNat (c : Config) (v : Bits) :
    (correct c v).unc.toNat = if c.n < syndrome c v then 1 else 0 := by
  rw [correct_unc, Bool.toNat, Bool.cond_decide]

/-- `u` of DECS counts the codewords whose syndrome exceeds `N`. -/
theorem uncorrectable_eq_countP (c : Config) (e : Bits) :
    uncorrectable c e = (segment e c.n).countP fun w => decide (c.n < syndrome c w) := by
  unfold uncorrectable
  induction segment e c.n with
  | nil => rfl
  | cons w ws ih =>
    rw [List.map_cons, List.sum_cons, ih, decodeCodeword, correct_unc_toNat, List.countP_cons]
    simp [Nat.add_comm]

theorem length_decodedBits (c : Config) (e : Bits) : (decodedBits c e).length = e.length / c.n * c.mode := by
  simp [decodedBits, List.length_flatMap, decodeCodeword]

/-- The message DECS returns is no longer than the stream it reads. -/
theorem length_decodeStream_le (c : Config) (e : Bits) : 8 * (decodeStream c e).length ≤ e.length := by
  have hmode : c.mode ≤ c.n := n_eq c ▸ Nat.le_add_right _ _
  rw [decodeStream, length_bitsToBytes, length_wholeBytes]
  calc 8 * (8 * ((decodedBits c e).length / 8) / 8)
      ≤ (decodedBits c e).length := by omega
    _ = e.length / c.n * c.mode := length_decodedBits c e
    _ ≤ e.length / c.n * c.n := Nat.mul_le_mul_left _ hmode
    _ ≤ e.length := Nat.div_mul_le_self _ _

/-- The only length DECS can refuse is its operand's. -/
theorem refusalCause_decs_eq_none {s : State} {e : Bits} (h : WithinSeqmax s.cfg e.length) :
    refusalCause (.decs e) s = none :=
  sequenceError_eq_none.2 ⟨h, fun m hm => (length_decodeStream_le s.cfg e).trans (h m hm)⟩

/-! ## The status of a step (R15) -/

/-- A move other than a reset keeps `CMDERR` and `ERRCODE`, or is a command refused with the cause recorded in them (R15). -/
theorem step_status_cases {s t : State} (h : step s = .next t) (hmove : s.inbox.head? ≠ some .reset) :
    (t.cmderr = s.cmderr ∧ t.errcode = s.errcode) ∨
      (t.cmderr = true ∧ ∃ e : Cause, t.rsp = some (.refused e.code) ∧ t.errcode = e.code) := by
  obtain ⟨-, rfl⟩ | ⟨rest, hin, -⟩ | ⟨w, rest, i, -, -, hexec⟩ | ⟨w, rest, e, -, -, rfl⟩ := step_cases h
  · exact .inl ⟨rfl, rfl⟩
  · simp [hin] at hmove
  · obtain ⟨e, -, rfl⟩ | ⟨-, rfl⟩ := exec_cases hexec
    · exact .inr ⟨rfl, e, rfl, rfl⟩
    · exact .inl ⟨completed_cmderr i _, completed_errcode i _⟩
  · exact .inr ⟨rfl, _, rfl, rfl⟩

/-- A command answered with a code has been refused, as an operation or for want of one, with a cause of that code. -/
theorem step_answers_refused {s t : State} {w : CommandWord} {rest : List HostMove} {code : BitVec 3}
    (hin : s.inbox = .command w :: rest) (h : step s = .next t) (hr : t.rsp = some (.refused code)) :
    ∃ e : Cause, e.code = code ∧ t = refuse e (takeMove rest s) := by
  cases hd : decodeCommand s w with
  | ok i => exact exec_answers_refused (step_command hin hd ▸ h) hr
  | error e =>
    rw [step_undecoded hin hd] at h
    obtain rfl := Host.Outcome.next.inj h
    exact ⟨_, by simpa using hr, rfl⟩

/-! ## Distances (R144) -/

/-- Complementing a set of indices moves a sequence by as many bits as it has indices in that set. -/
theorem hamming_complementAt (v : Bits) (T : List Nat) :
    hamming v (complementAt v T) = (List.range v.length).countP fun i => decide (i ∈ T) := by
  have hxor : xorBits v (complementAt v T) = (List.range v.length).map fun i => decide (i ∈ T) := by
    apply List.ext_getElem (by simp [xorBits])
    intro i _ _
    by_cases hT : i ∈ T <;> simp [xorBits, complementAt, hT]
  rw [hamming, hxor, List.countP_map]
  rfl

@[simp] theorem hamming_self (v : Bits) : hamming v v = 0 := by
  simp [hamming, xorBits]

theorem hamming_flipAt {v : Bits} {r : Nat} (h : r < v.length) : hamming v (flipAt v r) = 1 := by
  rw [flipAt, hamming_complementAt]
  have hcount : (List.range v.length).count r = 1 :=
    List.count_eq_one_of_mem List.nodup_range (List.mem_range.2 h)
  simpa [List.count, beq_eq_decide] using hcount

/-- The correction step changes at most one bit (R101). -/
theorem hamming_correct_le_one {c : Config} {v : Bits} (hv : v.length = c.n) : hamming v (correct c v).cw ≤ 1 := by
  unfold correct
  split
  · simp
  · split
    · exact (hamming_flipAt (by omega)).le
    · simp

theorem bitAt_writeParity_of_data {c : Config} {v : Bits} {p : Nat} (hp : p ∈ positions c.n)
    (hdata : isParityPos p = false) : bitAt (writeParity c v) p = bitAt v p := by
  rw [bitAt_writeParity (mem_positions.1 hp), if_neg (by simp [hdata])]

/-! ## The obligations -/

/-- Settles O50: the reset state and the reset event hold the reset values, and `CW` cannot be read from there. -/
theorem resetGivesTheResetValues : Obligations.ResetGivesTheResetValues := by
  unfold Obligations.ResetGivesTheResetValues
  refine ⟨fun c => ⟨rfl, rfl, rfl, rfl, rfl⟩, fun s rest hin => ?_, fun c => ?_⟩
  · exact ⟨_, step_reset hin, rfl, rfl, rfl, rfl, rfl, rfl⟩
  · exact exec_of_refusalCause_some (noValueError_eq_some.2 ⟨resetOf_cwv c, rfl⟩)

/-- Settles O49: `completed_cwv` says who writes `CWV`, `refusalCause_of_readsCw` who needs it. -/
theorem cwvGuardsEveryReadOfCw : Obligations.CwvGuardsEveryReadOfCw := by
  unfold Obligations.CwvGuardsEveryReadOfCw
  refine ⟨resetOf_cwv, fun i s t r h hr => ?_, fun i s hread hcwv hdraw => ?_⟩
  · obtain ⟨-, rfl⟩ := exec_answers_ok h hr
    exact completed_cwv i s
  · apply exec_of_refusalCause_some
    rw [refusalCause_of_readsCw hread hdraw]
    exact noValueError_eq_some.2 ⟨hcwv, rfl⟩

/-- Settles O47: `step_status_cases` leaves a set `CMDERR` set in both its cases. -/
theorem cmderrIsSticky : Obligations.CmderrIsSticky := by
  unfold Obligations.CmderrIsSticky
  refine ⟨fun s t h hmove => ?_, fun s t w rest code hin h hr => ?_, fun s rest hin => ?_, fun s => ?_⟩
  · have hcases := step_status_cases h hmove
    refine ⟨fun hset => ?_, hcases⟩
    obtain ⟨hkeep, -⟩ | ⟨hrefused, -⟩ := hcases
    · rw [hkeep, hset]
    · exact hrefused
  · obtain ⟨e, rfl, rfl⟩ := step_answers_refused hin h hr
    exact ⟨rfl, rfl⟩
  · exact ⟨_, step_reset hin, rfl, rfl⟩
  · exact ⟨_, s.errcnt, exec_of_refusalCause_none rfl, rfl⟩

/-- Settles O5: each writer passes its check and completes; the others do not touch the counter. -/
theorem counterSaturatesAndHasFourWriters : Obligations.CounterSaturatesAndHasFourWriters := by
  unfold Obligations.CounterSaturatesAndHasFourWriters
  refine ⟨fun c k h => saturate_unbounded h k, fun c k w h => saturate_bounded h k, fun c k => saturate_eq_zero_iff,
    fun s hcwv => ?syne, fun s v hv => ?decb, fun s e he => ?decs, fun s => ?rderr, fun s => ?clrerr,
    fun i s t hw h => exec_errcnt_of_not_writer hw h⟩
  case syne =>
    refine ⟨_, exec_of_refusalCause_none (noValueError_eq_none.2 hcwv), ?_⟩
    rw [← correct_unc_toNat]
    rfl
  case decb =>
    refine ⟨_, exec_of_refusalCause_none (codewordError_eq_none.2 hv), ?_⟩
    rw [← correct_unc_toNat]
    rfl
  case decs =>
    refine ⟨_, exec_of_refusalCause_none (refusalCause_decs_eq_none he), ?_, _, rfl⟩
    rw [← uncorrectable_eq_countP]
    rfl
  case rderr => exact ⟨_, s.cmderr, s.errcode, exec_of_refusalCause_none rfl, rfl⟩
  case clrerr => exact ⟨_, exec_of_refusalCause_none rfl, rfl⟩

/-- Settles O48: a refused operation is `refuse`, any other is `completed`, read field by field. -/
theorem accessTable : Obligations.AccessTable := by
  unfold Obligations.AccessTable
  refine ⟨fun i s t code h hr => ?_, fun i s t r h hr => ?_⟩
  · obtain ⟨e, rfl, rfl⟩ := exec_answers_refused h hr
    rfl
  obtain ⟨hnone, rfl⟩ := exec_answers_ok h hr
  refine ⟨completed_cw_of_not_writer s, fun hsup => by simp [hsup],
    fun hstream => by simp [hstream, suppliesCw_of_isStream hstream],
    fun hsup hstream => by simp [hsup, hstream], fun hread => cwv_of_readsCw hread hnone,
    completed_errcnt_of_not_writer s, completed_cmderr i s, completed_errcode i s, completed_cfg i s,
    ?_, ?_, ?_, ?_, ?_, ?_, fun hcw => ⟨?synw, ?syne, ?flip1⟩⟩
  · rintro v rfl; rfl
  · rintro d rfl; rfl
  · rintro d rfl; rfl
  · rintro v rfl; rfl
  · rintro rfl; rfl
  · rintro e rfl; rfl
  case synw =>
    rintro rfl
    exact ⟨length_writeParity s.cfg s.cw, fun p hp hdata => bitAt_writeParity_of_data hp hdata⟩
  case syne =>
    rintro rfl
    exact ⟨(length_correct_cw s.cfg s.cw).trans hcw, hamming_correct_le_one hcw⟩
  case flip1 =>
    rintro k rfl
    have hk : k < s.cw.length := hcw ▸ (refusalCause_flip1_eq_none.1 hnone).1
    exact ⟨(length_flipAt s.cw k).trans hcw, hamming_flipAt hk⟩

end Sys2Proof.Machine

/-! PROOF. The length adjustments and the stream lengths (20_memory R34, R44, R45). What pads, cuts and converts a sequence has one
equation here; the round trip of a message through ENCS and DECS is `decodedBits_encodeStream` followed by `bitsToBytes_bytesToBits_append`. -/

namespace Sys2Proof.Machine

/-! ## Padding and whole bytes (R34) -/

/-- A length rounded up to a multiple of `m` is no shorter than the length itself. -/
theorem le_roundUp {m : Nat} (hm : 0 < m) (len : Nat) : len ≤ (len + m - 1) / m * m := by
  have h := length_padTo hm (List.replicate len false)
  rw [padTo, List.length_append, List.length_replicate] at h
  omega

/-- A length rounded up to a multiple of `m` exceeds the length by less than `m`. -/
theorem roundUp_sub_lt {m : Nat} (hm : 0 < m) (len : Nat) : (len + m - 1) / m * m - len < m := by
  have h := Nat.div_mul_le_self (len + m - 1) m
  omega

/-- `padTo` with the number of zeros written as a difference of lengths. -/
theorem padTo_eq_append_roundUp {m : Nat} (hm : 0 < m) (b : Bits) :
    padTo b m = b ++ List.replicate ((b.length + m - 1) / m * m - b.length) false := by
  have h := length_padTo hm b
  rw [padTo, List.length_append, List.length_replicate] at h
  rw [padTo, ← h, Nat.add_sub_cancel_left]

theorem wholeBytes_eq_take (b : Bits) : wholeBytes b = b.take (b.length - b.length % 8) := by
  rw [wholeBytes, show 8 * (b.length / 8) = b.length - b.length % 8 by omega]

/-- `wholeBytes` keeps the whole groups of eight, so cutting into bytes does not see what it drops. -/
theorem bitsToBytes_wholeBytes (b : Bits) : bitsToBytes (wholeBytes b) = bitsToBytes b := by
  have hflat : wholeBytes b = (segment b 8).flatten := by
    rw [wholeBytes_eq_take, flatten_segment (by decide)]
  rw [bitsToBytes, hflat, segment_flatten (by decide) fun w hw => length_of_mem_segment hw, ← bitsToBytes]

/-! ## Bytes in front of a sequence, and zero bits (R71) -/

theorem bitsToBytes_bytesToBits_append (y : List Byte) (b : Bits) :
    bitsToBytes (bytesToBits y ++ b) = y ++ bitsToBytes b := by
  induction y with
  | nil => rfl
  | cons x y ih =>
    rw [bytesToBits_cons, List.append_assoc, bitsToBytes_append (length_bitsOfByte x), byteOfBits_bitsOfByte, ih,
      List.cons_append]

theorem bitsToBytes_replicate_false (k : Nat) :
    bitsToBytes (List.replicate k false) = List.replicate (k / 8) 0#8 := by
  refine List.eq_replicate_iff.2 ⟨by simp, fun x hx => ?_⟩
  obtain ⟨w, hw, rfl⟩ := List.mem_map.1 hx
  have hzero : w = List.replicate 8 false := by
    obtain ⟨j, -, rfl⟩ := List.mem_map.1 hw
    have hlen := length_of_mem_segment hw
    rw [List.drop_replicate, List.take_replicate, List.length_replicate] at hlen
    rw [List.drop_replicate, List.take_replicate, hlen]
  subst hzero
  decide

/-! ## The encoder's codewords decode to their blocks (R120, R122) -/

@[simp] theorem length_encodeBlock (c : Config) (d : Bits) : (encodeBlock c d).length = c.n :=
  length_writeParity c _

/-- The encoder's output is a valid codeword: the skeleton's parity slots hold 0. -/
theorem syndrome_encodeBlock (c : Config) (d : Bits) : syndrome c (encodeBlock c d) = 0 := by
  refine syndrome_writeParity_eq_zero_iff.2 fun i hi => ?_
  rw [bitAt_buildSkeleton ⟨Nat.one_le_two_pow, (two_pow_lt_n hi).le⟩, if_pos (isParityPos_two_pow i)]

theorem correct_of_syndrome_eq_zero {c : Config} {v : Bits} (h : syndrome c v = 0) : correct c v = ⟨v, 0, false⟩ := by
  rw [correct, if_pos h, h]

/-- The layout inverse law (R88): the data slots of a skeleton hold its block. -/
theorem stripParity_buildSkeleton {c : Config} {d : Bits} (hd : d.length = c.mode) :
    stripParity c (buildSkeleton c d) = d := by
  have hslots : ((positions c.n).filter fun p => !isParityPos p).map dataIndex = positions d.length := by
    rw [map_dataIndex_dataSlots, List.countP_eq_length_filter, length_dataSlots, hd, positions]
  calc stripParity c (buildSkeleton c d)
      = ((positions c.n).filter fun p => !isParityPos p).map fun p => bitAt d (dataIndex p) := by
        refine List.map_congr_left fun p hp => ?_
        obtain ⟨hpos, hdata⟩ := List.mem_filter.1 hp
        rw [bitAt_buildSkeleton (mem_positions.1 hpos), if_neg (by simpa using hdata)]
    _ = (positions d.length).map (bitAt d) := by rw [← hslots, List.map_map]; rfl
    _ = d := map_bitAt_positions d

/-- Decoding an encoded block gives the block back. -/
theorem decodeCodeword_encodeBlock_data {c : Config} {d : Bits} (hd : d.length = c.mode) :
    (decodeCodeword c (encodeBlock c d)).data = d := by
  rw [decodeCodeword, correct_of_syndrome_eq_zero (syndrome_encodeBlock c d)]
  calc stripParity c (encodeBlock c d)
      = stripParity c (buildSkeleton c d) :=
        stripParity_congr fun p h1 hn hdata => bitAt_writeParity_of_data (mem_positions.2 ⟨h1, hn⟩) hdata
    _ = d := stripParity_buildSkeleton hd

/-! ## Streams (R124, R126, R143, R145) -/

theorem length_encodeStream (c : Config) (b : Bits) :
    (encodeStream c b).length = (b.length + c.mode - 1) / c.mode * c.n := by
  have hblocks : (segment (padTo b c.mode) c.mode).length = (b.length + c.mode - 1) / c.mode := by
    rw [length_segment, length_padTo c.mode_pos, Nat.mul_div_cancel _ c.mode_pos]
  simp only [encodeStream, List.length_flatMap, length_encodeBlock, List.map_const', List.sum_replicate_nat, hblocks]

theorem decodeStream_eq_bitsToBytes (c : Config) (e : Bits) : decodeStream c e = bitsToBytes (decodedBits c e) :=
  bitsToBytes_wholeBytes _

theorem length_decodeStream (c : Config) (e : Bits) : (decodeStream c e).length = e.length / c.n * c.mode / 8 := by
  rw [decodeStream_eq_bitsToBytes, length_bitsToBytes, length_decodedBits]

/-- DECS recovers the padded operand of ENCS, codeword by codeword. -/
theorem decodedBits_encodeStream (c : Config) (b : Bits) : decodedBits c (encodeStream c b) = padTo b c.mode := by
  have hcut : segment (encodeStream c b) c.n = (segment (padTo b c.mode) c.mode).map (encodeBlock c) :=
    segment_flatten (n_pos c) (by simp)
  have hdecode : ∀ d ∈ segment (padTo b c.mode) c.mode, (decodeCodeword c (encodeBlock c d)).data = d :=
    fun d hd => decodeCodeword_encodeBlock_data (length_of_mem_segment hd)
  calc decodedBits c (encodeStream c b)
      = ((segment (padTo b c.mode) c.mode).map fun d => (decodeCodeword c (encodeBlock c d)).data).flatten := by
        rw [decodedBits, hcut, List.flatMap_map, List.flatMap_def]
    _ = (segment (padTo b c.mode) c.mode).flatten := by rw [List.map_congr_left hdecode, List.map_id']
    _ = padTo b c.mode := by
        rw [flatten_segment c.mode_pos, padTo_length_mod c.mode_pos, Nat.sub_zero, List.take_length]

/-- A round trip returns the message and the zero bytes its padding fills (R45). -/
theorem decodeStream_encodeStream_bytesToBits (c : Config) (y : List Byte) :
    decodeStream c (encodeStream c (bytesToBits y)) =
      y ++ List.replicate (((8 * y.length + c.mode - 1) / c.mode * c.mode - 8 * y.length) / 8) 0#8 := by
  rw [decodeStream_eq_bitsToBytes, decodedBits_encodeStream, padTo_eq_append_roundUp c.mode_pos,
    bitsToBytes_bytesToBits_append, bitsToBytes_replicate_false, length_bytesToBits]

/-- A function that keeps the length of each codeword gives as many bits as it reads codewords. -/
theorem length_flatten_zipWith_segment {α : Type} {f : Bits → α → Bits} (hf : ∀ w a, (f w a).length = w.length)
    {b : Bits} {n : Nat} {draws : List α} (h : b.length / n ≤ draws.length) :
    (List.zipWith f (segment b n) draws).flatten.length = b.length / n * n := by
  have hlen : ∀ k ∈ (List.zipWith f (segment b n) draws).map List.length, k = n := by
    rw [← List.map_uncurry_zip_eq_zipWith, List.map_map]
    intro k hk
    obtain ⟨⟨w, a⟩, hmem, rfl⟩ := List.mem_map.1 hk
    exact (hf w a).trans (length_of_mem_segment (List.of_mem_zip hmem).1)
  rw [List.length_flatten, List.sum_eq_card_nsmul _ n hlen, List.length_map, List.length_zipWith, length_segment,
    Nat.min_eq_left h, smul_eq_mul]

theorem length_noiseOne {c : Config} {b : Bits} {draws : List Nat} (h : b.length / c.n ≤ draws.length) :
    (noiseOne c b draws).length = b.length / c.n * c.n :=
  length_flatten_zipWith_segment length_flipAt h

theorem length_noiseFour {c : Config} {b : Bits} {draws : List Nat} (h : 4 * (b.length / c.n) ≤ draws.length) :
    (noiseFour c b draws).length = b.length / c.n * c.n :=
  length_flatten_zipWith_segment length_complementAt (by rw [length_segment]; omega)

/-! ## The obligations -/

/-- Settles O6: the padding is a remainder modulo `m`; the segments and the whole bytes are the lemmas about each. -/
theorem paddingSegmentingAndTruncating : Obligations.PaddingSegmentingAndTruncating := by
  unfold Obligations.PaddingSegmentingAndTruncating
  refine ⟨fun b m hm => ?padding, fun b n hn => ?segments, fun b => ⟨wholeBytes_eq_take b, length_wholeBytes b⟩⟩
  case padding =>
    refine ⟨(m - b.length % m) % m, Nat.mod_lt _ hm, rfl, padTo_length_mod hm b, fun hwhole => ?_⟩
    rw [hwhole, Nat.sub_zero, Nat.mod_self]
  case segments =>
    exact ⟨length_segment b n, fun k hk => getElem?_segment hk, fun w hw => length_of_mem_segment hw,
      flatten_segment hn b⟩

/-- Settles O39: each length is its function's lemma; the round trip is the message followed by its padding's zero bytes. -/
theorem streamLengths : Obligations.StreamLengths := by
  unfold Obligations.StreamLengths
  refine ⟨length_bytesToBits, fun b _ => length_bitsToBytes b, length_encodeStream, length_decodeStream,
    fun c b draws => length_noiseOne, fun c b draws => length_noiseFour, fun c y K hK => ?roundTrip⟩
  have hle : 8 * y.length ≤ K * c.mode := hK ▸ le_roundUp c.mode_pos _
  have hlt : K * c.mode - 8 * y.length < c.mode := hK ▸ roundUp_sub_lt c.mode_pos _
  have htrip := decodeStream_encodeStream_bytesToBits c y
  rw [← hK] at htrip
  have hsplit : K * c.mode / 8 = y.length + (K * c.mode - 8 * y.length) / 8 := by omega
  refine ⟨?_, ?_, hsplit, by omega, ?_, ?_⟩
  · rw [length_encodeStream, length_bytesToBits, hK]
  · rw [htrip, List.length_append, List.length_replicate, hsplit]
  · rw [htrip, List.take_left]
  · rw [htrip, List.drop_left]

end Sys2Proof.Machine

/-! PROOF. The encoding family (30_encoding R55, R57 to R59; 60_exceptions R166, R167). The priority of the refusals is three lemmas
about `refusalCause`: a length fault decides alone, then a draw out of range, and what is left is the guard on reading `CW`. -/

namespace Sys2Proof.Machine

/-! ## Reserved op values (R57) -/

/-- `decode` compares all five bits of `op` and reads no operand of a reserved value. -/
theorem decode_of_reserved (c : Config) {w : CommandWord} (h : 0x12 ≤ w.op.toNat) :
    decode c w = .error (.reservedOp w.op) := by
  obtain ⟨k, hk⟩ := Nat.exists_eq_add_of_le' h
  rw [decode, hk]
  rfl

theorem op_lt_of_decode {c : Config} {w : CommandWord} {i : Instr} (h : decode c w = .ok i) : w.op.toNat < 0x12 := by
  by_contra hop
  rw [decode_of_reserved c (Nat.le_of_not_lt hop)] at h
  cases h

/-- A reserved `op` is refused with `ERR_OP` before any operand is looked at. -/
theorem step_reserved {s : State} {w : CommandWord} {rest : List HostMove} (hin : s.inbox = .command w :: rest)
    (h : 0x12 ≤ w.op.toNat) : step s = .next (refuse .op (takeMove rest s)) :=
  step_undecoded hin (decode_of_reserved s.cfg h)

/-! ## Length faults (R38, R58 (b) to (e)) -/

/-- A result no longer than an operand within `SEQMAX` is within it too. -/
theorem sequenceError_of_le {c : Config} {operand result : Nat} (hfit : WithinSeqmax c operand)
    (hle : result ≤ operand) : sequenceError c operand result = none :=
  sequenceError_eq_none.2 ⟨hfit, fun m hm => hle.trans (hfit m hm)⟩

theorem sequenceError_of_operand {c : Config} {operand : Nat} (result : Nat) (h : ¬WithinSeqmax c operand) :
    sequenceError c operand result = some .len :=
  sequenceError_eq_some.2 ⟨fun hfit => h hfit.1, rfl⟩

/-- Both of two length checks answer `ERR_LEN`, so it does not matter which of them fails. -/
theorem sequenceError_or_eq_len {c : Config} {operand result : Nat} {other : Option Cause}
    (h : other = some .len ∨ ¬WithinSeqmax c operand) : (sequenceError c operand result).or other = some .len := by
  cases hseq : sequenceError c operand result with
  | none =>
    obtain hother | hfit := h
    · rw [Option.none_or, hother]
    · exact absurd (sequenceError_eq_none.1 hseq).1 hfit
  | some e =>
    obtain ⟨-, rfl⟩ := sequenceError_eq_some.1 hseq
    rfl

/-- With draws enough and an operand within `SEQMAX`, a noise operation checks nothing but the draws it uses. -/
theorem noiseChecks_of_lengths {c : Config} {len result needed : Nat} {draws : List Nat} (hfit : WithinSeqmax c len)
    (hcount : needed ≤ draws.length) (hle : result ≤ len) :
    (sequenceError c len result).or ((drawCountError needed draws).or (drawRangeError c (draws.take needed))) =
      drawRangeError c (draws.take needed) := by
  rw [sequenceError_of_le hfit hle, drawCountError_eq_none.2 hcount, Option.none_or, Option.none_or]

/-- NOISE1 without a length fault. -/
theorem refusalCause_noise1 {s : State} {b : Bits} {draws : List Nat} (h : ¬LengthFault s.cfg (.noise1 b draws)) :
    refusalCause (.noise1 b draws) s = drawRangeError s.cfg (draws.take (b.length / s.cfg.n)) := by
  obtain ⟨hcount, hfit⟩ := not_or.1 h
  have hdraws := Nat.le_of_not_lt hcount
  exact noiseChecks_of_lengths (not_not.1 hfit) hdraws (length_noiseOne hdraws ▸ Nat.div_mul_le_self _ _)

/-- NOISE4 without a length fault. -/
theorem refusalCause_noise4 {s : State} {b : Bits} {draws : List Nat} (h : ¬LengthFault s.cfg (.noise4 b draws)) :
    refusalCause (.noise4 b draws) s = drawRangeError s.cfg (draws.take (4 * (b.length / s.cfg.n))) := by
  obtain ⟨hcount, hfit⟩ := not_or.1 h
  have hdraws := Nat.le_of_not_lt hcount
  exact noiseChecks_of_lengths (not_not.1 hfit) hdraws (length_noiseFour hdraws ▸ Nat.div_mul_le_self _ _)

/-! ## The priority of the refusals (R167) -/

theorem refusalCause_of_lengthFault {i : Instr} {s : State} (h : LengthFault s.cfg i) :
    refusalCause i s = some .len := by
  cases i with
  | ldcw v | decb v => exact codewordError_eq_some.2 ⟨h, rfl⟩
  | ilv d | encb d => exact blockError_eq_some.2 ⟨h, rfl⟩
  | ser8 y => exact sequenceError_of_operand _ h
  | des8 b => exact sequenceError_or_eq_len (h.imp_left fun hbytes => wholeByteError_eq_some.2 ⟨hbytes, rfl⟩)
  | encs b =>
    refine sequenceError_eq_some.2 ⟨?_, rfl⟩
    rw [length_encodeStream]
    exact not_and_or.2 h
  | decs e => exact sequenceError_of_operand _ h
  | noise1 b draws | noise4 b draws =>
    refine sequenceError_or_eq_len (h.imp_left fun hcount => ?_)
    rw [drawCountError_eq_some.2 ⟨hcount, rfl⟩, Option.some_or]
  | rdcw | clrerr | rderr | dlv | syn | synw | syne | flip1 => exact h.elim

theorem refusalCause_of_positionFault {i : Instr} {s : State} (hlen : ¬LengthFault s.cfg i)
    (h : PositionFault s.cfg i) : refusalCause i s = some .pos := by
  cases i with
  | flip1 r =>
    have hrange : drawRangeError s.cfg [r] = some .pos := drawRangeError_eq_some.2 ⟨⟨r, by simp, h⟩, rfl⟩
    rw [refusalCause, hrange, Option.some_or]
  | noise1 b draws => rw [refusalCause_noise1 hlen, drawRangeError_eq_some.2 ⟨h, rfl⟩]
  | noise4 b draws => rw [refusalCause_noise4 hlen, drawRangeError_eq_some.2 ⟨h, rfl⟩]
  | _ => exact h.elim

/-- A draw sequence without a draw that is not below `N` passes. -/
theorem drawRangeError_of_not_exists {c : Config} {draws : List Nat} (h : ¬∃ r ∈ draws, c.n ≤ r) :
    drawRangeError c draws = none :=
  drawRangeError_eq_none.2 fun r hr => Nat.lt_of_not_le fun hle => h ⟨r, hr, hle⟩

/-- Without a fault in its operands, an operation that does not read `CW` is not refused. -/
theorem refusalCause_of_not_readsCw {i : Instr} {s : State} (hlen : ¬LengthFault s.cfg i)
    (hpos : ¬PositionFault s.cfg i) (hread : readsCw i = false) : refusalCause i s = none := by
  cases i with
  | ldcw v | decb v => exact codewordError_eq_none.2 (not_not.1 hlen)
  | ilv d | encb d => exact blockError_eq_none.2 (not_not.1 hlen)
  | clrerr | rderr => rfl
  | ser8 y => exact sequenceError_of_le (not_not.1 hlen) (length_bytesToBits y).le
  | des8 b =>
    obtain ⟨hbytes, hfit⟩ := not_or.1 hlen
    have hle : 8 * (bitsToBytes b).length ≤ b.length := length_bitsToBytes b ▸ Nat.mul_div_le _ _
    rw [refusalCause, sequenceError_of_le (not_not.1 hfit) hle, Option.none_or]
    exact wholeByteError_eq_none.2 (not_not.1 hbytes)
  | encs b =>
    obtain ⟨hoperand, hresult⟩ := not_or.1 hlen
    refine sequenceError_eq_none.2 ⟨not_not.1 hoperand, ?_⟩
    rw [length_encodeStream]
    exact not_not.1 hresult
  | decs e => exact refusalCause_decs_eq_none (not_not.1 hlen)
  | noise1 b draws => exact (refusalCause_noise1 hlen).trans (drawRangeError_of_not_exists hpos)
  | noise4 b draws => exact (refusalCause_noise4 hlen).trans (drawRangeError_of_not_exists hpos)
  | rdcw | dlv | syn | synw | syne | flip1 => simp [readsCw] at hread

/-- Without a fault in its operands, an operation is refused for nothing but a missing value of `CW`. -/
theorem refusalCause_of_operands_ok {i : Instr} {s : State} (hlen : ¬LengthFault s.cfg i)
    (hpos : ¬PositionFault s.cfg i) : refusalCause i s = if readsCw i then noValueError s else none := by
  cases hread : readsCw i with
  | false => exact refusalCause_of_not_readsCw hlen hpos hread
  | true =>
    refine refusalCause_of_readsCw hread ?_
    rintro r rfl
    exact Nat.lt_of_not_le hpos

/-! ## The table of results (R55) -/

theorem correct_synd_lt (c : Config) (v : Bits) : (correct c v).synd < 2 ^ c.s := by
  rw [correct_synd]
  exact syndrome_lt c v

/-- The invariant gives the widths of `CW` and `ERRCNT`; every other result is as wide as the function that computes it makes it. -/
theorem resultFits_resultOf {s : State} (h : s.Inv) (i : Instr) : ResultFits s.cfg i (resultOf i s) := by
  obtain ⟨hcw, herrcnt, -⟩ := h
  cases i with
  | rdcw => exact hcw
  | rderr => exact herrcnt
  | dlv => exact length_stripParity s.cfg s.cw
  | syn => exact syndrome_lt s.cfg s.cw
  | syne => exact correct_synd_lt s.cfg s.cw
  | encb d => exact length_encodeBlock s.cfg d
  | decb v => exact ⟨length_stripParity s.cfg _, correct_synd_lt s.cfg v⟩
  | decs e => exact saturate_saturate s.cfg _
  | ldcw | clrerr | ilv | synw | flip1 | ser8 | des8 | encs | noise1 | noise4 => trivial

/-! ## The syndrome values that name no position (R59) -/

theorem filter_lt_range {n m : Nat} (h : n < m) :
    ((List.range m).filter fun y => decide (n < y)) = List.range' (n + 1) (m - 1 - n) := by
  obtain ⟨k, rfl⟩ := Nat.exists_eq_add_of_le h
  have hlow : (List.range (n + 1)).filter (fun y => decide (n < y)) = [] :=
    List.filter_eq_nil_iff.2 fun y hy => by simpa using Nat.le_of_lt_succ (List.mem_range.1 hy)
  have hhigh : (List.range' (n + 1) k).filter (fun y => decide (n < y)) = List.range' (n + 1) k :=
    List.filter_eq_self.2 fun y hy => by simpa using (List.mem_range'_1.1 hy).1
  rw [List.range_add, List.filter_append, hlow, ← List.range'_eq_map_range, hhigh, List.nil_append]
  congr 1
  omega

/-- The syndromes above `N`, in order. -/
theorem filter_uncorrectable_syndromes (c : Config) :
    ((List.range (2 ^ c.s)).filter fun y => decide (c.n < y)) = List.range' (c.n + 1) (2 ^ c.s - 1 - c.n) :=
  filter_lt_range (n_lt_two_pow c)

/-- The `MODE` values the rule lists leave no syndrome without a position. -/
theorem add_parityCount_of_full_length :
    ∀ m ∈ [1, 4, 11, 26, 57, 120, 247], m + parityCount m = 2 ^ parityCount m - 1 := by
  decide

/-! ## The obligations -/

/-- Settles O46: a reserved `op` decodes to no operation, and the step refuses it. -/
theorem reservedOpIsRefused : Obligations.ReservedOpIsRefused := by
  unfold Obligations.ReservedOpIsRefused
  refine ⟨fun s w rest hin h => step_reserved hin h, fun c w h => ?_, by decide⟩
  obtain ⟨i, hi⟩ := h
  exact op_lt_of_decode hi

/-- Settles O25: the syndromes above `N` are the interval from `N + 1` to `2^S - 1`. -/
theorem syndromeValueSpace : Obligations.SyndromeValueSpace := by
  unfold Obligations.SyndromeValueSpace
  refine ⟨correct_unc, fun c => ?count, fun c v hfull => ?full, fun c hmode => add_parityCount_of_full_length _ hmode,
    fun c hmode => ?mode8, fun c hmode => ?mode43⟩
  case count => rw [filter_uncorrectable_syndromes, List.length_range']
  case full =>
    have hlt := syndrome_lt c v
    rw [correct_unc, decide_eq_false_iff_not]
    omega
  case mode8 =>
    rw [filter_uncorrectable_syndromes, n_eq, Config.s, hmode]
    decide
  case mode43 =>
    rw [filter_uncorrectable_syndromes, n_eq, Config.s, hmode]
    decide

/-- Settles O53: an operation is refused with a cause's code, or completes with its result of the table. -/
theorem responsesFollowTheTable : Obligations.ResponsesFollowTheTable := by
  unfold Obligations.ResponsesFollowTheTable
  intro i s t hinv h
  obtain ⟨e, -, rfl⟩ | ⟨-, rfl⟩ := exec_cases h
  · exact .inr ⟨e, refuse_rsp e s⟩
  · exact .inl ⟨resultOf i s, completed_rsp i s, resultFits_resultOf hinv i⟩

/-- Settles O45: the lemmas on the priority of the refusals, read as outcomes of `exec`. -/
theorem refusalCodesCausesAndPriority : Obligations.RefusalCodesCausesAndPriority := by
  unfold Obligations.RefusalCodesCausesAndPriority
  refine ⟨⟨rfl, rfl, rfl, rfl⟩, resetOf_errcode, fun i s => ⟨fun hlen => ?len, fun hlen hpos => ?pos,
    fun hlen hpos hread hcwv => ?noVal, fun hlen hpos hvalue => ?ok⟩, fun s w rest hin h => ?reserved⟩
  case len => exact exec_of_refusalCause_some (refusalCause_of_lengthFault hlen)
  case pos => exact exec_of_refusalCause_some (refusalCause_of_positionFault hlen hpos)
  case noVal =>
    apply exec_of_refusalCause_some
    rw [refusalCause_of_operands_ok hlen hpos, if_pos hread]
    exact noValueError_eq_some.2 ⟨hcwv, rfl⟩
  case ok =>
    refine ⟨completed i s, resultOf i s, exec_of_refusalCause_none ?_, completed_rsp i s⟩
    rw [refusalCause_of_operands_ok hlen hpos, ite_eq_right_iff]
    exact fun hread => noValueError_eq_none.2 (hvalue hread)
  case reserved => exact ⟨_, step_reserved hin h, rfl, rfl⟩

end Sys2Proof.Machine

/-! PROOF. The bit conversion family (40_bit_conversion R70 to R72). A byte and a group of eight bits determine each other: one half is
`byteOfBits_bitsOfByte`, the other, `bitsOfByte_byteOfBits`, reads the weighted sum digit by digit with `sum_bits_spec`. -/

namespace Sys2Proof.Machine

/-! ## One byte and its eight bits (R31, R71) -/

theorem getElem?_bitsOfByte (x : Byte) {u : Nat} (h : u ≤ 7) : (bitsOfByte x)[u]? = some (x.getLsbD (7 - u)) := by
  rw [bitsOfByte, List.getElem?_map, List.getElem?_range (Nat.lt_succ_of_le h), Option.map_some]

/-- The weights of R71 from the most significant bit down are the powers of two from the least significant bit up. -/
theorem sum_weights_eq_sum_digits (f : Nat → Bit) :
    ((List.range 8).map fun u => (f u).toNat * 2 ^ (7 - u)).sum =
      ((List.range 8).map fun i => 2 ^ i * (f (7 - i)).toNat).sum := by
  simp only [List.range_succ, List.range_zero, List.map_append, List.map_nil, List.map_cons, List.sum_append, List.sum_cons,
    List.sum_nil, Nat.reduceSub]
  omega

/-- The weighted sum of eight bits fits a byte, so none of it is lost. -/
theorem toNat_byteOfBits (w : Bits) :
    (byteOfBits w).toNat = ((List.range 8).map fun u => (w.getD u false).toNat * 2 ^ (7 - u)).sum := by
  rw [byteOfBits, BitVec.toNat_ofNat, Nat.mod_eq_of_lt]
  rw [sum_weights_eq_sum_digits (w.getD · false)]
  exact (sum_bits_spec (fun i => w.getD (7 - i) false) 8).1

theorem getLsbD_byteOfBits (w : Bits) {i : Nat} (h : i < 8) : (byteOfBits w).getLsbD i = w.getD (7 - i) false := by
  rw [← BitVec.testBit_toNat, toNat_byteOfBits, sum_weights_eq_sum_digits (w.getD · false),
    (sum_bits_spec (fun i => w.getD (7 - i) false) 8).2, decide_eq_true h, Bool.true_and]

/-- Eight bits are the bits of the byte they make. -/
theorem bitsOfByte_byteOfBits {w : Bits} (h : w.length = 8) : bitsOfByte (byteOfBits w) = w := by
  apply List.ext_getElem (by rw [length_bitsOfByte, h])
  intro u hu hw
  have hu7 : u ≤ 7 := by omega
  apply Option.some.inj
  rw [← List.getElem?_eq_getElem hu, getElem?_bitsOfByte _ hu7, getLsbD_byteOfBits w (by omega), Nat.sub_sub_self hu7,
    List.getD_eq_getElem _ _ hw]

/-! ## Sequences (R70, R71) -/

theorem getElem?_bytesToBits {y : List Byte} {t u : Nat} {x : Byte} (hx : y[t]? = some x) (hu : u ≤ 7) :
    (bytesToBits y)[8 * t + u]? = some (x.getLsbD (7 - u)) := by
  induction y generalizing t with
  | nil => cases hx
  | cons z y ih =>
    rw [bytesToBits_cons]
    cases t with
    | zero =>
      obtain rfl : z = x := Option.some.inj hx
      rw [Nat.mul_zero, Nat.zero_add, List.getElem?_append_left (by rw [length_bitsOfByte]; omega), getElem?_bitsOfByte z hu]
    | succ t =>
      rw [List.getElem?_append_right (by rw [length_bitsOfByte]; omega), length_bitsOfByte,
        show 8 * (t + 1) + u - 8 = 8 * t + u by omega]
      exact ih hx

theorem bitsToBytes_bytesToBits (y : List Byte) : bitsToBytes (bytesToBits y) = y := by
  have hnil : bitsToBytes [] = [] := rfl
  rw [← List.append_nil (bytesToBits y), bitsToBytes_bytesToBits_append, hnil, List.append_nil]

/-- Cutting into bytes and back loses the incomplete last group and nothing else. -/
theorem bytesToBits_bitsToBytes (b : Bits) : bytesToBits (bitsToBytes b) = wholeBytes b := by
  have hgroups : (segment b 8).map (fun w => bitsOfByte (byteOfBits w)) = segment b 8 :=
    (List.map_congr_left fun w hw => bitsOfByte_byteOfBits (length_of_mem_segment hw)).trans (List.map_id' _)
  rw [bytesToBits, bitsToBytes, List.flatMap_map, List.flatMap_def, hgroups, flatten_segment (by decide),
    wholeBytes_eq_take]

theorem wholeBytes_of_whole {b : Bits} (h : b.length % 8 = 0) : wholeBytes b = b := by
  rw [wholeBytes_eq_take, h, Nat.sub_zero, List.take_length]

theorem getElem?_bitsToBytes {b : Bits} {t : Nat} (h : t < b.length / 8) :
    (bitsToBytes b)[t]? = some (byteOfBits ((b.drop (t * 8)).take 8)) := by
  rw [bitsToBytes, List.getElem?_map, getElem?_segment h, Option.map_some]

/-- A byte cut from a sequence is the weighted sum of the eight bits at its place. -/
theorem toNat_byteOfBits_group (b : Bits) (t : Nat) :
    (byteOfBits ((b.drop (t * 8)).take 8)).toNat =
      ∑ u ∈ Finset.range 8, (b.getD (8 * t + u) false).toNat * 2 ^ (7 - u) := by
  rw [toNat_byteOfBits, ← List.sum_toFinset _ List.nodup_range, List.toFinset_range]
  refine Finset.sum_congr rfl fun u hu => ?_
  rw [List.getD_eq_getElem?_getD, List.getElem?_take_of_lt (Finset.mem_range.1 hu), List.getElem?_drop,
    ← List.getD_eq_getElem?_getD, Nat.mul_comm t 8]

/-! ## The obligations -/

/-- Settles O7: the bit of each index by induction over the bytes; SER8 is refused by a length fault alone. -/
theorem ser8SerialisesMostSignificantBitFirst : Obligations.Ser8SerialisesMostSignificantBitFirst := by
  unfold Obligations.Ser8SerialisesMostSignificantBitFirst
  refine ⟨fun y => ⟨length_bytesToBits y, fun t u x => getElem?_bytesToBits⟩,
    fun s y => ⟨rfl, fun hfit => ?ok, fun hlong => ?refused⟩⟩
  case ok => exact exec_of_refusalCause_none (refusalCause_of_not_readsCw (not_not.2 hfit) id rfl)
  case refused => exact exec_of_refusalCause_some (refusalCause_of_lengthFault (i := .ser8 y) hlong)

/-- Settles O8: both inverses come from those of a single byte; byte `t` is the weighted sum of segment `t`. -/
theorem bitsToBytesInvertsBytesToBits : Obligations.BitsToBytesInvertsBytesToBits := by
  unfold Obligations.BitsToBytesInvertsBytesToBits
  refine ⟨bitsToBytes_bytesToBits, fun b hwhole => ?inverse, fun b _ => ⟨length_bitsToBytes b, fun t ht => ?byte⟩⟩
  case inverse => rw [bytesToBits_bitsToBytes, wholeBytes_of_whole hwhole]
  case byte => exact ⟨_, getElem?_bitsToBytes ht, toNat_byteOfBits_group b t⟩

/-- Settles O9: DES8 is refused by a length fault alone, and an incomplete byte is one. -/
theorem des8DeserialisesWholeBytes : Obligations.Des8DeserialisesWholeBytes := by
  unfold Obligations.Des8DeserialisesWholeBytes
  refine fun s b => ⟨rfl, fun hpart => ?refused, fun hwhole hfit => ?ok⟩
  case refused => exact exec_of_refusalCause_some (refusalCause_of_lengthFault (i := .des8 b) (.inl hpart))
  case ok =>
    have hlen : ¬LengthFault s.cfg (.des8 b) := not_or.2 ⟨not_not.2 hwhole, not_not.2 hfit⟩
    exact exec_of_refusalCause_none (refusalCause_of_not_readsCw hlen id rfl)

end Sys2Proof.Machine

/-! PROOF. The interleaver family (41_interleaver R80 to R88). `parityCount_eq_succ` finds the parity-bit count between two powers of two,
so `dataPos` and `dataIndex` are inverse to each other; the two loops are then followed slot by slot, each with an equation for the bit at
every position after `k` turns. -/

namespace Sys2Proof.Machine

/-! ## The parity-bit count (R80, R81) -/

theorem exists_config_of_mode {m : Nat} (h : 1 ≤ m) : ∃ c : Config, c.mode = m := ⟨⟨m, none, none, h, by decide⟩, rfl⟩

/-- Going down from `k` to `t`, a power of two loses at least as much as the sum it is compared with. -/
theorem two_pow_le_add_of_le {i k t : Nat} (h : 2 ^ k ≤ i + k) (ht : t ≤ k) : 2 ^ t ≤ i + t := by
  have hgrow : k - t + 2 ^ t ≤ 2 ^ (k - t + t) := (pow_right_strictMono₀ one_lt_two).add_le_nat (k - t) t
  rw [Nat.sub_add_cancel ht] at hgrow
  omega

theorem parityCount_eq_succ {i k : Nat} (hlo : 2 ^ k ≤ i + k) (hhi : i + k + 1 < 2 ^ (k + 1)) : parityCount i = k + 1 :=
  parityCount_unique (by omega) fun t ht => by
    have := two_pow_le_add_of_le hlo (Nat.le_of_lt_succ ht)
    omega

/-- The source's closed form (R80), in exact real arithmetic: with `S = k + 2`, `log2(m + 1)` lies between `k` and `S`. -/
theorem ceil_logb_eq_parityCount {m : Nat} (hm : 1 ≤ m) :
    ⌈Real.logb 2 (Real.logb 2 ((m : ℝ) + 1) + (m : ℝ) + 1)⌉ = (parityCount m : ℤ) := by
  obtain ⟨hle, hmin⟩ := parityCount_spec m
  obtain ⟨k, hk⟩ : ∃ k, parityCount m = k + 2 := by
    obtain ⟨c, rfl⟩ := exists_config_of_mode hm
    exact ⟨_, (Nat.sub_add_cancel (two_le_s c)).symm⟩
  rw [hk] at hle ⊢
  have hlast : 2 ^ (k + 1) ≤ m + k + 1 := by have := hmin (k + 1) (by omega); omega
  have hlow : 2 ^ k < m + 1 := by have := Nat.lt_two_pow_self (n := k); omega
  have hlogLe : Real.logb 2 ((m : ℝ) + 1) ≤ (k : ℝ) + 2 := by
    rw [Real.logb_le_iff_le_rpow one_lt_two (by positivity)]
    exact_mod_cast (show m + 1 ≤ 2 ^ (k + 2) by omega)
  have hlogGt : (k : ℝ) < Real.logb 2 ((m : ℝ) + 1) := by
    rw [Real.lt_logb_iff_rpow_lt one_lt_two (by positivity)]
    exact_mod_cast hlow
  have hpos : 0 < Real.logb 2 ((m : ℝ) + 1) + (m : ℝ) + 1 := by
    have hk0 : (0 : ℝ) ≤ k := k.cast_nonneg
    have hm0 : (0 : ℝ) ≤ m := m.cast_nonneg
    linarith
  rw [Int.ceil_eq_iff, Real.lt_logb_iff_rpow_lt one_lt_two hpos, Real.logb_le_iff_le_rpow one_lt_two hpos]
  constructor
  · have hcast : ((2 : ℝ) ^ (k + 1)) ≤ (m : ℝ) + k + 1 := by exact_mod_cast hlast
    rw [show (((k + 2 : Nat) : ℤ) : ℝ) - 1 = ((k + 1 : Nat) : ℝ) by push_cast; ring, Real.rpow_natCast]
    linarith
  · have hcast : (k : ℝ) + 2 + m + 1 ≤ (2 : ℝ) ^ (k + 2) := by exact_mod_cast hle
    rw [Int.cast_natCast, Real.rpow_natCast]
    linarith

/-- The last position is no power of two (R81 (c)): every `2^j` below `2^S` is below `N`. -/
theorem isParityPos_n (c : Config) : isParityPos c.n = false := by
  rw [Bool.eq_false_iff]
  intro h
  obtain ⟨j, hj, hn⟩ := parityPos_lt le_rfl h
  exact (two_pow_lt_n hj).ne' hn

/-! ## The slots (R82, R83) -/

/-- The parity slots in order (R82). -/
theorem filter_isParityPos_positions (c : Config) :
    (positions c.n).filter isParityPos = (List.range c.s).map (2 ^ ·) := by
  have hslots : ((positions c.n).filter isParityPos).Pairwise (· < ·) :=
    (List.pairwise_lt_range' 1).filter _
  have hpowers : ((List.range c.s).map (2 ^ ·)).Pairwise (· < ·) :=
    List.pairwise_lt_range.map _ fun _ _ h => Nat.pow_lt_pow_right one_lt_two h
  refine hslots.eq_of_mem_iff hpowers fun p => ?_
  rw [List.mem_filter, mem_positions, List.mem_map]
  constructor
  · rintro ⟨⟨-, hn⟩, hpar⟩
    obtain ⟨j, hj, rfl⟩ := parityPos_lt hn hpar
    exact ⟨j, List.mem_range.2 hj, rfl⟩
  · rintro ⟨j, hj, rfl⟩
    exact ⟨⟨Nat.one_le_two_pow, (two_pow_lt_n (List.mem_range.1 hj)).le⟩, isParityPos_two_pow j⟩

theorem isParityPos_dataPos {i : Nat} (h : 1 ≤ i) : isParityPos (dataPos i) = false := by
  obtain ⟨c, rfl⟩ := exists_config_of_mode h
  exact isParityPos_n c

theorem dataIndex_dataPos {i : Nat} (h : 1 ≤ i) : dataIndex (dataPos i) = i := by
  obtain ⟨c, rfl⟩ := exists_config_of_mode h
  have hlog := log2_n c
  change c.n - Nat.log2 c.n - 1 = c.mode
  rw [n_eq] at hlog ⊢
  omega

/-- A data position lies strictly between two powers of two. -/
theorem two_pow_log2_lt {p : Nat} (hp : 1 ≤ p) (hdata : isParityPos p = false) : 2 ^ Nat.log2 p < p := by
  refine lt_of_le_of_ne (Nat.log2_self_le (Nat.ne_of_gt hp)) fun h => ?_
  exact Bool.eq_false_iff.1 hdata (isParityPos_iff.2 ⟨Nat.log2 p, h.symm⟩)

theorem one_le_dataIndex {p : Nat} (hp : 1 ≤ p) (hdata : isParityPos p = false) : 1 ≤ dataIndex p := by
  have hlow := two_pow_log2_lt hp hdata
  have hself := Nat.lt_two_pow_self (n := Nat.log2 p)
  rw [dataIndex]
  omega

theorem dataPos_dataIndex {p : Nat} (hp : 1 ≤ p) (hdata : isParityPos p = false) : dataPos (dataIndex p) = p := by
  have hlow := two_pow_log2_lt hp hdata
  have hhigh : p < 2 ^ (Nat.log2 p + 1) := Nat.lt_log2_self
  have hself := Nat.lt_two_pow_self (n := Nat.log2 p)
  have hcount : parityCount (dataIndex p) = Nat.log2 p + 1 :=
    parityCount_eq_succ (by rw [dataIndex]; omega) (by rw [dataIndex]; omega)
  rw [dataPos, hcount, dataIndex]
  omega

/-- The data slots in order (R50, R83). -/
theorem dataSlots_eq_map_dataPos (c : Config) :
    ((positions c.n).filter fun p => !isParityPos p) = (List.range' 1 c.mode).map dataPos := by
  have hindices : ((positions c.n).filter fun p => !isParityPos p).map dataIndex = List.range' 1 c.mode := by
    rw [map_dataIndex_dataSlots, List.countP_eq_length_filter, length_dataSlots]
  rw [← hindices, List.map_map, eq_comm]
  refine (List.map_congr_left fun p hp => ?_).trans (List.map_id _)
  obtain ⟨hpos, hdata⟩ := List.mem_filter.1 hp
  exact dataPos_dataIndex (mem_positions.1 hpos).1 (by simpa using hdata)

theorem dataPos_le_n {c : Config} {i : Nat} (h1 : 1 ≤ i) (hi : i ≤ c.mode) : dataPos i ≤ c.n := by
  have hmem : dataPos i ∈ (positions c.n).filter fun p => !isParityPos p := by
    rw [dataSlots_eq_map_dataPos]
    exact List.mem_map_of_mem (List.mem_range'_1.2 (by omega))
  exact (mem_positions.1 (List.mem_filter.1 hmem).1).2

theorem dataIndex_le_mode {c : Config} {p : Nat} (hp : p ∈ positions c.n) (hdata : isParityPos p = false) :
    dataIndex p ≤ c.mode := by
  have hmem : p ∈ (positions c.n).filter fun p => !isParityPos p := List.mem_filter.2 ⟨hp, by simp [hdata]⟩
  rw [dataSlots_eq_map_dataPos] at hmem
  obtain ⟨i, hi, rfl⟩ := List.mem_map.1 hmem
  rw [List.mem_range'_1] at hi
  rw [dataIndex_dataPos hi.1]
  omega

/-! ## The layout functions at a slot (R84, R85, R88) -/

theorem bitAt_buildSkeleton_two_pow {c : Config} (d : Bits) {j : Nat} (h : j < c.s) :
    bitAt (buildSkeleton c d) (2 ^ j) = false := by
  rw [bitAt_buildSkeleton ⟨Nat.one_le_two_pow, (two_pow_lt_n h).le⟩, if_pos (isParityPos_two_pow j)]

theorem bitAt_buildSkeleton_dataPos {c : Config} (d : Bits) {i : Nat} (h1 : 1 ≤ i) (hi : i ≤ c.mode) :
    bitAt (buildSkeleton c d) (dataPos i) = bitAt d i := by
  have hpos : 1 ≤ dataPos i := by rw [dataPos]; omega
  rw [bitAt_buildSkeleton ⟨hpos, dataPos_le_n h1 hi⟩, if_neg (by simp [isParityPos_dataPos h1]), dataIndex_dataPos h1]

theorem stripParity_eq_map_dataPos (c : Config) (v : Bits) :
    stripParity c v = (positions c.mode).map fun i => bitAt v (dataPos i) := by
  rw [stripParity, dataSlots_eq_map_dataPos, List.map_map]
  rfl

theorem bitAt_stripParity {c : Config} (v : Bits) {i : Nat} (h1 : 1 ≤ i) (hi : i ≤ c.mode) :
    bitAt (stripParity c v) i = bitAt v (dataPos i) := by
  rw [stripParity_eq_map_dataPos, bitAt_map_positions _ ⟨h1, hi⟩]

/-- A block read back from a codeword differs from the codeword in the parity slots alone (R88). -/
theorem buildSkeleton_stripParity (c : Config) (v : Bits) :
    buildSkeleton c (stripParity c v) = (positions c.n).map fun p => if isParityPos p then false else bitAt v p := by
  refine List.map_congr_left fun p hp => ?_
  split
  · rfl
  next hpar =>
    have hdata : isParityPos p = false := by simpa using hpar
    have h1 := (mem_positions.1 hp).1
    rw [bitAt_stripParity v (one_le_dataIndex h1 hdata) (dataIndex_le_mode hp hdata), dataPos_dataIndex h1 hdata]

theorem buildSkeleton_replicate_false (c : Config) :
    buildSkeleton c (List.replicate c.mode false) = List.replicate c.n false := by
  simp [buildSkeleton, List.map_const']

theorem bitAt_replicate_true {n p : Nat} (h1 : 1 ≤ p) (hp : p ≤ n) : bitAt (List.replicate n true) p = true := by
  rw [bitAt, List.getD_replicate _ (by omega)]

theorem buildSkeleton_replicate_true (c : Config) :
    buildSkeleton c (List.replicate c.mode true) = (positions c.n).map fun p => !isParityPos p := by
  refine List.map_congr_left fun p hp => ?_
  cases hdata : isParityPos p with
  | true => rfl
  | false => exact bitAt_replicate_true (one_le_dataIndex (mem_positions.1 hp).1 hdata) (dataIndex_le_mode hp hdata)

/-! ## The insertion loop (R84) -/

/-- A bit inserted at position `q` moves what stood from `q` on up by one position. -/
theorem bitAt_insert {v : Bits} {q p : Nat} (b : Bit) (hq : 1 ≤ q) (hlen : q - 1 ≤ v.length) (hp : 1 ≤ p) :
    bitAt (v.take (q - 1) ++ [b] ++ v.drop (q - 1)) p =
      if p < q then bitAt v p else if p = q then b else bitAt v (p - 1) := by
  have htake : (v.take (q - 1)).length = q - 1 := by rw [List.length_take, Nat.min_eq_left hlen]
  rw [List.append_assoc]
  simp only [bitAt]
  rcases lt_trichotomy p q with hlt | rfl | hgt
  · rw [if_pos hlt, List.getD_append _ _ _ _ (by omega), List.getD_eq_getElem?_getD, List.getElem?_take_of_lt (by omega),
      ← List.getD_eq_getElem?_getD]
  · rw [if_neg (lt_irrefl p), if_pos rfl, List.getD_append_right _ _ _ _ htake.le, htake, Nat.sub_self]
    rfl
  · have hafter : q - 1 + (p - 1 - (q - 1) - [b].length) = p - 1 - 1 := by rw [List.length_singleton]; omega
    rw [if_neg hgt.not_gt, if_neg hgt.ne', List.getD_append_right _ _ _ _ (by omega), htake,
      List.getD_append_right _ _ _ _ (by rw [List.length_singleton]; omega), List.getD_eq_getElem?_getD,
      List.getElem?_drop, hafter, ← List.getD_eq_getElem?_getD]

/-- The codeword after `k` turns of the insertion loop. -/
def insertedSlots (d : Bits) (k : Nat) : Bits :=
  (List.range k).foldl (fun v j => v.take (2 ^ j - 1) ++ [false] ++ v.drop (2 ^ j - 1)) d

theorem insertedSlots_s (c : Config) (d : Bits) : insertedSlots d c.s = buildSkeletonLoop c d := rfl

theorem insertedSlots_zero (d : Bits) : insertedSlots d 0 = d := rfl

theorem insertedSlots_succ (d : Bits) (k : Nat) : insertedSlots d (k + 1) =
    (insertedSlots d k).take (2 ^ k - 1) ++ [false] ++ (insertedSlots d k).drop (2 ^ k - 1) := by
  rw [insertedSlots, List.range_succ, List.foldl_append]
  rfl

/-- Each turn adds one bit. -/
theorem length_insertedSlots (d : Bits) (k : Nat) : (insertedSlots d k).length = d.length + k := by
  induction k with
  | zero => rfl
  | succ k ih =>
    rw [insertedSlots_succ, List.length_append, List.length_append, List.length_singleton, List.length_take, List.length_drop]
    omega

/-- After `k` turns the codeword is right below position `2^k`, and from there on holds the block moved up by `k`. -/
theorem bitAt_insertedSlots {c : Config} {d : Bits} (hd : d.length = c.mode) {k p : Nat} (hk : k ≤ c.s) (hp : 1 ≤ p) :
    bitAt (insertedSlots d k) p =
      if p < 2 ^ k then (if isParityPos p then false else bitAt d (dataIndex p)) else bitAt d (p - k) := by
  induction k generalizing p with
  | zero => rw [pow_zero, if_neg (by omega), insertedSlots_zero, Nat.sub_zero]
  | succ k ih =>
    have hroom : 2 ^ k - 1 ≤ (insertedSlots d k).length := by
      have := two_pow_le_mode_add (c := c) hk
      rw [length_insertedSlots, hd]
      omega
    have hself := Nat.lt_two_pow_self (n := k)
    have hdouble := pow_succ 2 k
    rw [insertedSlots_succ, bitAt_insert false Nat.one_le_two_pow hroom hp]
    rcases lt_trichotomy p (2 ^ k) with hlt | rfl | hgt
    · rw [if_pos hlt, ih (by omega) hp, if_pos hlt, if_pos (c := p < 2 ^ (k + 1)) (by omega)]
    · rw [if_neg (lt_irrefl _), if_pos rfl, if_pos (by omega), if_pos (isParityPos_two_pow k)]
    · rw [if_neg (by omega), if_neg (by omega), ih (by omega) (by omega), if_neg (by omega), Nat.sub_sub, Nat.add_comm 1 k]
      split
      next hnext =>
        have hlog : Nat.log2 p = k := (Nat.log2_eq_iff (by omega)).2 ⟨hgt.le, hnext⟩
        have hdata : isParityPos p = false := by simp [isParityPos, hlog, hgt.ne']
        rw [if_neg (by simp [hdata]), dataIndex, hlog, Nat.sub_sub]
      · rfl

theorem buildSkeletonLoop_eq {c : Config} {d : Bits} (hd : d.length = c.mode) : buildSkeletonLoop c d = buildSkeleton c d := by
  have hlen : (buildSkeletonLoop c d).length = c.n := by rw [← insertedSlots_s, length_insertedSlots, hd, n_eq]
  refine eq_of_bitAt (by rw [hlen, length_buildSkeleton]) fun p h1 hp => ?_
  rw [hlen] at hp
  rw [← insertedSlots_s, bitAt_insertedSlots hd le_rfl h1, if_pos (hp.trans_lt (n_lt_two_pow c)), bitAt_buildSkeleton ⟨h1, hp⟩]

/-! ## The deletion loop (R85) -/

/-- Deleting the bit at position `q` moves what stood above `q` down by one position. -/
theorem bitAt_delete (v : Bits) {q i : Nat} (hq : 1 ≤ q) (hi : 1 ≤ i) :
    bitAt (v.take (q - 1) ++ v.drop q) i = if i < q then bitAt v i else bitAt v (i + 1) := by
  obtain ⟨q, rfl⟩ := Nat.exists_eq_add_of_le' hq
  obtain ⟨i, rfl⟩ := Nat.exists_eq_add_of_le' hi
  simp only [bitAt, Nat.add_sub_cancel, ← List.eraseIdx_eq_take_drop_succ, List.getD_eq_getElem?_getD, List.getElem?_eraseIdx,
    apply_ite (Option.getD · false), Nat.add_lt_add_iff_right]

/-- What is left of a codeword after `k` turns of the deletion loop. -/
def deletedSlots (v : Bits) (k : Nat) : Bits :=
  (List.range k).foldl (fun t j => t.take (2 ^ j - j - 1) ++ t.drop (2 ^ j - j)) v

theorem deletedSlots_s (c : Config) (v : Bits) : deletedSlots v c.s = stripParityLoop c v := rfl

theorem deletedSlots_zero (v : Bits) : deletedSlots v 0 = v := rfl

theorem deletedSlots_succ (v : Bits) (k : Nat) : deletedSlots v (k + 1) =
    (deletedSlots v k).take (2 ^ k - k - 1) ++ (deletedSlots v k).drop (2 ^ k - k) := by
  rw [deletedSlots, List.range_succ, List.foldl_append]
  rfl

/-- Each turn takes one bit away, as parity slot `k` lies inside the codeword. -/
theorem length_deletedSlots {c : Config} {v : Bits} (hv : v.length = c.n) {k : Nat} (hk : k ≤ c.s) :
    (deletedSlots v k).length = c.n - k := by
  induction k with
  | zero => exact hv
  | succ k ih =>
    have hslot := two_pow_lt_n (c := c) hk
    have hself := Nat.lt_two_pow_self (n := k)
    rw [deletedSlots_succ, List.length_append, List.length_take, List.length_drop, ih (by omega)]
    omega

/-- After `k` turns bit `i` comes from data slot `i` where that lies below `2^k`, and from position `i + k` elsewhere. -/
theorem bitAt_deletedSlots (v : Bits) {k i : Nat} (hi : 1 ≤ i) :
    bitAt (deletedSlots v k) i = bitAt v (if i + k < 2 ^ k then dataPos i else i + k) := by
  induction k generalizing i with
  | zero => rw [pow_zero, if_neg (by omega), deletedSlots_zero, Nat.add_zero]
  | succ k ih =>
    have hself := Nat.lt_two_pow_self (n := k)
    have hdouble := pow_succ 2 k
    rw [deletedSlots_succ, bitAt_delete _ (by omega) hi]
    split
    next hlow => rw [ih hi, if_pos (by omega), if_pos (by omega)]
    next hhigh =>
      rw [ih (by omega), if_neg (by omega), Nat.add_right_comm, ← Nat.add_assoc]
      split
      next hnext => rw [dataPos, parityCount_eq_succ (by omega) hnext, Nat.add_assoc]
      · rfl

theorem stripParityLoop_eq {c : Config} {v : Bits} (hv : v.length = c.n) : stripParityLoop c v = stripParity c v := by
  have hlen : (stripParityLoop c v).length = c.mode := by
    rw [← deletedSlots_s, length_deletedSlots hv le_rfl, n_eq, Nat.add_sub_cancel]
  refine eq_of_bitAt (by rw [hlen, length_stripParity]) fun i h1 hi => ?_
  rw [hlen] at hi
  have hlast : i + c.s < 2 ^ c.s := lt_of_le_of_lt (by rw [n_eq]; omega) (n_lt_two_pow c)
  rw [← deletedSlots_s, bitAt_deletedSlots v h1, if_pos hlast, bitAt_stripParity v h1 hi]

/-! ## ILV and DLV (R86, R87) -/

theorem exec_ilv {s : State} {d : Bits} (hd : d.length = s.cfg.mode) :
    exec (.ilv d) s = .next (respond .done (setCw (buildSkeleton s.cfg d) s)) :=
  exec_of_refusalCause_none (blockError_eq_none.2 hd)

theorem exec_dlv {s : State} (h : s.cwv = true) : exec .dlv s = .next (respond (.block (stripParity s.cfg s.cw)) s) :=
  exec_of_refusalCause_none (noValueError_eq_none.2 h)

/-! ## The obligations -/

/-- Settles O10: `parityCount_spec` is the least `s`, `ceil_logb_eq_parityCount` the closed form. -/
theorem parityCountIsTheLeastAndTheClosedForm : Obligations.ParityCountIsTheLeastAndTheClosedForm := by
  unfold Obligations.ParityCountIsTheLeastAndTheClosedForm
  refine ⟨fun m hm => ?_, by decide, by decide⟩
  obtain ⟨hle, hmin⟩ := parityCount_spec m
  exact ⟨hle, hmin, (ceil_logb_eq_parityCount hm).symm⟩

/-- Settles O11: every bound comes from `S` being least; a nonzero value of `S` bits is a position or lies above `N`. -/
theorem layoutBoundsHold : Obligations.LayoutBoundsHold := by
  unfold Obligations.LayoutBoundsHold
  intro c
  have hs := two_le_s c
  have hn := n_lt_two_pow c
  refine ⟨hs, by omega, two_pow_lt_n (by omega), fun j hj => ?_, fun j hj => (two_pow_lt_n hj).le, isParityPos_n c,
    fun p hp => ?_, fun y hy _ => ?_⟩
  · exact (Nat.sub_le _ _).trans (two_pow_le_mode_add hj)
  · exact (mem_positions.1 hp).2.trans_lt hn
  · rw [mem_positions]
    omega

/-- Settles O12: both lists of parity slots ascend and hold the same positions; the other positions are counted. -/
theorem paritySlotsAreThePowersOfTwo : Obligations.ParitySlotsAreThePowersOfTwo := by
  unfold Obligations.ParitySlotsAreThePowersOfTwo
  exact ⟨fun p => isParityPos_iff, fun c => ⟨filter_isParityPos_positions c, length_dataSlots c⟩⟩

/-- Settles O13: `dataPos k` is the `N` of the configuration with `MODE = k`, whose data slots are listed in order. -/
theorem dataPositionsInOrder : Obligations.DataPositionsInOrder := by
  unfold Obligations.DataPositionsInOrder
  refine ⟨fun k hk => ?order, fun i hi => ?closedForm, fun p hp hdata => ?inverse, by decide, fun c => rfl⟩
  case order =>
    obtain ⟨c, rfl⟩ := exists_config_of_mode hk
    exact dataSlots_eq_map_dataPos c
  case closedForm =>
    obtain ⟨hle, hmin⟩ := parityCount_spec i
    refine ⟨parityCount i, rfl, by omega, fun t ht => ?_, dataIndex_dataPos hi⟩
    have := hmin t ht
    omega
  case inverse => exact ⟨rfl, one_le_dataIndex hp hdata, dataPos_dataIndex hp hdata⟩

/-- Settles O14: `bitAt_insertedSlots` follows the loop turn by turn. -/
theorem skeletonLoopIsTheClosedForm : Obligations.SkeletonLoopIsTheClosedForm := by
  unfold Obligations.SkeletonLoopIsTheClosedForm
  intro c d hd
  exact ⟨length_buildSkeleton c d, buildSkeletonLoop_eq hd, fun j => bitAt_buildSkeleton_two_pow d,
    fun i => bitAt_buildSkeleton_dataPos d⟩

/-- Settles O15: `bitAt_deletedSlots` follows the loop turn by turn. -/
theorem stripLoopIsTheClosedForm : Obligations.StripLoopIsTheClosedForm := by
  unfold Obligations.StripLoopIsTheClosedForm
  intro c v hv
  refine ⟨length_stripParity c v, stripParityLoop_eq hv, fun i => bitAt_stripParity v, fun v' _ hagree => ?_⟩
  exact stripParity_congr fun p h1 hn hdata => hagree p (mem_positions.2 ⟨h1, hn⟩) hdata

/-- Settles O16: the two inverse laws; DLV finds in `CW` the skeleton that ILV left there. -/
theorem layoutInverseLaw : Obligations.LayoutInverseLaw := by
  unfold Obligations.LayoutInverseLaw
  refine ⟨fun c d => stripParity_buildSkeleton, fun c v _ => buildSkeleton_stripParity c v, fun s d hd => ?_⟩
  refine ⟨_, _, exec_ilv hd, exec_dlv rfl, ?_⟩
  simp [stripParity_buildSkeleton hd]

/-- Settles O17: the one check of ILV decides between the skeleton and the refusal. -/
theorem ilvBuildsTheSkeleton : Obligations.IlvBuildsTheSkeleton := by
  unfold Obligations.IlvBuildsTheSkeleton
  refine ⟨fun s d => ⟨rfl, exec_ilv, fun hd => ?_⟩, fun c => ⟨fun d j _ => bitAt_buildSkeleton_two_pow d,
    buildSkeleton_replicate_false c, buildSkeleton_replicate_true c⟩⟩
  exact exec_of_refusalCause_some (blockError_eq_some.2 ⟨hd, rfl⟩)

/-- Settles O18: the one check of DLV decides between the block and the refusal; write mode leaves the data slots alone. -/
theorem dlvReadsTheDataSlots : Obligations.DlvReadsTheDataSlots := by
  unfold Obligations.DlvReadsTheDataSlots
  refine ⟨fun s => ⟨rfl, exec_dlv, fun h => ?_⟩, fun c v => ?_⟩
  · exact exec_of_refusalCause_some (noValueError_eq_some.2 ⟨h, rfl⟩)
  · exact stripParity_congr fun p h1 hn hdata => bitAt_writeParity_of_data (mem_positions.2 ⟨h1, hn⟩) hdata

end Sys2Proof.Machine

/-! PROOF. The syndrome family (42_syndrome R95 to R107, R188). Three lemmas carry it: the syndrome turns `xorBits` into `xor`
(`syndrome_xorBits`), complementing a set of positions changes it by their `xor` (`syndrome_flipPositions`), and write mode exchanges
the parity slots with the digits of the syndrome (`sind_writeParity`). -/

namespace Sys2Proof.Machine

/-! ## Coverage sets (R95) -/

/-- Digit `i` is set in the upper half of every period of `2^(i+1)` numbers. -/
theorem testBit_iff_le_mod {q i : Nat} : q.testBit i = true ↔ 2 ^ i ≤ q % 2 ^ (i + 1) := by
  have hlow : q % 2 ^ i < 2 ^ i := Nat.mod_lt _ (Nat.two_pow_pos i)
  rw [Nat.testBit_eq_decide_div_mod_eq, decide_eq_true_iff, Nat.mod_pow_succ]
  rcases Nat.mod_two_eq_zero_or_one (q / 2 ^ i) with h | h
  · simp [h, hlow]
  · simp [h]

/-- The groups of `2^i` numbers that start at the odd multiples of `2^i` are the numbers with digit `i` set. -/
theorem testBit_iff_exists_group {q i : Nat} :
    q.testBit i = true ↔ ∃ k j, j < 2 ^ i ∧ q = 2 ^ i + k * 2 ^ (i + 1) + j := by
  have hdouble := pow_succ 2 i
  rw [testBit_iff_le_mod]
  constructor
  · intro h
    have hsplit := Nat.div_add_mod' q (2 ^ (i + 1))
    have hlt := Nat.mod_lt q (Nat.two_pow_pos (i + 1))
    exact ⟨q / 2 ^ (i + 1), q % 2 ^ (i + 1) - 2 ^ i, by omega, by omega⟩
  · rintro ⟨k, j, hj, rfl⟩
    rw [Nat.add_right_comm, Nat.add_mul_mod_self_right, Nat.mod_eq_of_lt (by omega)]
    exact Nat.le_add_right _ _

/-- Counting on from `n` either stays in a period of `d` or begins the next one. -/
theorem succ_div_mod_cases {d : Nat} (hd : 0 < d) (n : Nat) :
    ((n + 1) / d = n / d ∧ (n + 1) % d = n % d + 1) ∨ ((n + 1) / d = n / d + 1 ∧ (n + 1) % d = 0 ∧ n % d + 1 = d) := by
  have hsplit := Nat.mod_add_div n d
  rcases Nat.lt_or_eq_of_le (Nat.mod_lt n hd) with hin | hlast
  · exact .inl ((Nat.div_mod_unique hd).2 ⟨by omega, hin⟩)
  · obtain ⟨hdiv, hmod⟩ := (Nat.div_mod_unique (a := n + 1) (c := 0) (d := n / d + 1) hd).2 ⟨by rw [Nat.mul_succ]; omega, hd⟩
    exact .inr ⟨hdiv, hmod, hlast⟩

/-- Whole periods of `2^(i+1)` positions give `2^i` each, the last one what it holds of its upper half. -/
theorem countP_testBit_positions (i n : Nat) :
    (positions n).countP (fun q => q.testBit i) = n / 2 ^ (i + 1) * 2 ^ i + (n % 2 ^ (i + 1) + 1 - 2 ^ i) := by
  have hdouble := pow_succ 2 i
  have hpos := Nat.two_pow_pos i
  induction n with
  | zero => simp [positions]; omega
  | succ n ih =>
    rw [positions_succ, List.countP_append, ih, List.countP_singleton]
    simp only [testBit_iff_le_mod]
    obtain ⟨hdiv, hmod⟩ | ⟨hdiv, hmod, hlast⟩ := succ_div_mod_cases (Nat.two_pow_pos (i + 1)) n
    · rw [hdiv, hmod]
      split <;> omega
    · rw [hdiv, hmod, if_neg (by omega), Nat.succ_mul]
      omega

theorem length_cover (c : Config) (i : Nat) :
    (cover c i).length = c.n / 2 ^ (i + 1) * 2 ^ i + (c.n % 2 ^ (i + 1) + 1 - 2 ^ i) := by
  rw [cover, ← List.countP_eq_length_filter, countP_testBit_positions]

/-- No position has a digit beyond the parity indices. -/
theorem lt_s_of_mem_cover {c : Config} {i q : Nat} (h : q ∈ cover c i) : i < c.s := by
  obtain ⟨⟨-, hn⟩, hbit⟩ := mem_cover.1 h
  have hlt : 2 ^ i < 2 ^ c.s := (Nat.ge_two_pow_of_testBit hbit).trans_lt (hn.trans_lt (n_lt_two_pow c))
  exact (Nat.pow_lt_pow_iff_right one_lt_two).1 hlt

/-- A number that is no power of two has a set digit besides its highest. -/
theorem exists_testBit_ne_log2 {q : Nat} (hq : q ≠ 0) (hdata : isParityPos q = false) :
    ∃ k, k ≠ Nat.log2 q ∧ q.testBit k = true := by
  have hne : q ^^^ 2 ^ Nat.log2 q ≠ 0 := by
    rw [Ne, Nat.xor_eq_zero_iff]
    simpa [isParityPos] using hdata
  obtain ⟨k, hk⟩ := Nat.exists_testBit_of_ne_zero hne
  have hlog : k ≠ Nat.log2 q := by
    rintro rfl
    simp [Nat.testBit_log2 hq] at hk
  exact ⟨k, hlog, by simpa [Nat.testBit_two_pow_of_ne hlog.symm] using hk⟩

/-- The only power of two in `cover(i)` is `2^i`. -/
theorem isParityPos_of_mem_cover {c : Config} {i q : Nat} (hq : q ∈ cover c i) : isParityPos q = decide (q = 2 ^ i) := by
  rw [Bool.eq_iff_iff, decide_eq_true_iff]
  refine ⟨fun hpar => ?_, fun h => h ▸ isParityPos_two_pow i⟩
  obtain ⟨j, hj, rfl⟩ := parityPos_lt (mem_cover.1 hq).1.2 hpar
  rw [(two_pow_mem_cover hj).1 hq]

/-! ## One parity tree (R96, R98) -/

/-- The parity slot enters its own tree once (R96). -/
theorem sind_eq_xor_slot {c : Config} (v : Bits) {i : Nat} (hi : i < c.s) :
    sind c v i = (bitAt v (2 ^ i) ^^ xorAt v ((cover c i).filter (· ≠ 2 ^ i))) :=
  xorAt_filter_ne (nodup_cover c i) ((two_pow_mem_cover hi).2 rfl)

/-- Parity tree `i` reads slot `2^i` and data slots, no other parity slot (R98). -/
theorem sind_congr {c : Config} {v w : Bits} {i : Nat} (hslot : bitAt v (2 ^ i) = bitAt w (2 ^ i))
    (hdata : ∀ p ∈ positions c.n, isParityPos p = false → bitAt v p = bitAt w p) : sind c v i = sind c w i := by
  refine xorAt_congr fun q hq => ?_
  by_cases h : q = 2 ^ i
  · rw [h, hslot]
  · exact hdata q (mem_positions.2 (mem_cover.1 hq).1) (by simpa [h] using isParityPos_of_mem_cover hq)

/-! ## The syndrome as the xor of positions (R97) -/

theorem xorAt_filter_cons (v : Bits) (P : Nat → Bool) (q : Nat) (qs : List Nat) :
    xorAt v ((q :: qs).filter P) = ((P q && bitAt v q) ^^ xorAt v (qs.filter P)) := by
  cases h : P q <;> simp [h]

theorem testBit_xorOf_filter_cons (P : Nat → Bool) (q : Nat) (qs : List Nat) (i : Nat) :
    (xorOf ((q :: qs).filter P)).testBit i = ((P q && q.testBit i) ^^ (xorOf (qs.filter P)).testBit i) := by
  cases h : P q <;> simp [h, xorOf]

/-- Digit `i` of the xor of the positions of the set bits is the parity of those positions that have digit `i`. -/
theorem testBit_xorOf_filter_bitAt (v : Bits) (qs : List Nat) (i : Nat) :
    (xorOf (qs.filter (bitAt v))).testBit i = xorAt v (qs.filter fun q => q.testBit i) := by
  induction qs with
  | nil => exact Nat.zero_testBit i
  | cons q qs ih => rw [testBit_xorOf_filter_cons, xorAt_filter_cons, ih, Bool.and_comm]

theorem sind_of_s_le {c : Config} {i : Nat} (v : Bits) (h : c.s ≤ i) : sind c v i = false := by
  have hnil : cover c i = [] := List.eq_nil_iff_forall_not_mem.2 fun q hq => absurd (lt_s_of_mem_cover hq) h.not_gt
  rw [sind, hnil, xorAt_nil]

theorem syndrome_eq_xorOfSetPositions (c : Config) (v : Bits) : syndrome c v = xorOfSetPositions c v := by
  refine Nat.eq_of_testBit_eq fun i => ?_
  have hdigit : (xorOfSetPositions c v).testBit i = sind c v i := testBit_xorOf_filter_bitAt v (positions c.n) i
  rw [hdigit, testBit_syndrome]
  rcases Nat.lt_or_ge i c.s with hi | hi
  · simp [hi]
  · simp [sind_of_s_le v hi]

/-! ## Linearity (R98) -/

theorem bitAt_xorBits {a b : Bits} (h : a.length = b.length) (p : Nat) : bitAt (xorBits a b) p = (bitAt a p ^^ bitAt b p) := by
  simp only [bitAt, xorBits, List.getD_eq_getElem?_getD, List.getElem?_zipWith]
  rcases Nat.lt_or_ge (p - 1) a.length with hp | hp
  · simp [hp, h ▸ hp]
  · simp [hp, h ▸ hp]

theorem xorAt_xorBits {a b : Bits} (h : a.length = b.length) (qs : List Nat) :
    xorAt (xorBits a b) qs = (xorAt a qs ^^ xorAt b qs) := by
  induction qs with
  | nil => rfl
  | cons q qs ih =>
    rw [xorAt_cons, xorAt_cons, xorAt_cons, bitAt_xorBits h, ih, Bool.xor_assoc, Bool.xor_assoc, Bool.xor_left_comm (bitAt b q)]

theorem sind_xorBits (c : Config) {a b : Bits} (h : a.length = b.length) (i : Nat) :
    sind c (xorBits a b) i = (sind c a i ^^ sind c b i) :=
  xorAt_xorBits h (cover c i)

theorem syndrome_xorBits (c : Config) {a b : Bits} (h : a.length = b.length) :
    syndrome c (xorBits a b) = syndrome c a ^^^ syndrome c b := by
  rw [syndrome_eq_iff (Nat.xor_lt_two_pow (syndrome_lt c a) (syndrome_lt c b))]
  intro i hi
  simp [sind_xorBits c h, testBit_syndrome, hi]

theorem xorAt_replicate_false (n : Nat) (qs : List Nat) : xorAt (List.replicate n false) qs = false := by
  induction qs with
  | nil => rfl
  | cons q qs ih => rw [xorAt_cons, ih, bitAt_replicate_false, Bool.xor_false]

theorem validCodeword_replicate_false (c : Config) : ValidCodeword c (List.replicate c.n false) :=
  ⟨List.length_replicate, syndrome_eq_zero_iff.2 fun i _ => xorAt_replicate_false c.n (cover c i)⟩

/-- A codeword is valid when every parity slot holds the parity of the other positions it covers (R98). -/
theorem syndrome_eq_zero_iff_slots {c : Config} {v : Bits} :
    syndrome c v = 0 ↔ ∀ i, i < c.s → bitAt v (2 ^ i) = xorAt v ((cover c i).filter (· ≠ 2 ^ i)) := by
  rw [syndrome_eq_zero_iff]
  refine forall₂_congr fun i hi => ?_
  rw [sind_eq_xor_slot v hi, bne_eq_false_iff_eq]

/-! ## Complementing positions (R98, R105, R106) -/

@[simp] theorem length_flipPositions (v : Bits) (E : List Nat) : (flipPositions v E).length = v.length :=
  length_complementAt v _

theorem flipPositions_nil (v : Bits) : flipPositions v [] = v := by simp [flipPositions, complementAt]

theorem flipPositions_singleton (v : Bits) (q : Nat) : flipPositions v [q] = flipAt v (q - 1) := rfl

/-- Distinct positions can be complemented in two rounds. -/
theorem flipPositions_append {c : Config} {E F : List Nat} (h : ErrorPattern c (E ++ F)) (v : Bits) :
    flipPositions v (E ++ F) = flipPositions (flipPositions v E) F := by
  obtain ⟨hnodup, hrange⟩ := h
  obtain ⟨-, -, hdisjoint⟩ := List.nodup_append.1 hnodup
  rw [flipPositions, List.map_append]
  refine complementAt_append fun k hk hk' => ?_
  obtain ⟨p, hp, rfl⟩ := List.mem_map.1 hk
  obtain ⟨q, hq, hpq⟩ := List.mem_map.1 hk'
  have h1 := (hrange p (List.mem_append_left F hp)).1
  have h2 := (hrange q (List.mem_append_right E hq)).1
  exact hdisjoint p hp q hq (by omega)

theorem errorPattern_concat {c : Config} {E : List Nat} {q : Nat} (hE : ErrorPattern c E) (hnew : q ∉ E)
    (hq : 1 ≤ q ∧ q ≤ c.n) : ErrorPattern c (E ++ [q]) := by
  obtain ⟨hnodup, hrange⟩ := hE
  refine ⟨List.nodup_append.2 ⟨hnodup, List.nodup_singleton q, fun p hp r hr => ?_⟩, List.forall_mem_append.2 ⟨hrange, ?_⟩⟩
  · rw [List.mem_singleton.1 hr]
    exact fun h => hnew (h ▸ hp)
  · exact List.forall_mem_singleton.2 hq

/-- Positions 1, 2 and 3 cancel, and every codeword has them. -/
theorem errorPattern_one_two_three (c : Config) : ErrorPattern c [1, 2, 3] := by
  have hs := two_le_s c
  have hmode := c.mode_pos
  have hn : 3 ≤ c.n := by rw [n_eq]; omega
  exact ⟨by decide, by simp; omega⟩

/-- Complementing the positions of `E` changes the syndrome by their xor. -/
theorem syndrome_flipPositions {c : Config} {v : Bits} {E : List Nat} (hv : v.length = c.n) (hE : ErrorPattern c E) :
    syndrome c (flipPositions v E) = syndrome c v ^^^ xorOf E := by
  induction E generalizing v with
  | nil => rw [flipPositions_nil, xorOf, List.foldr_nil, Nat.xor_zero]
  | cons q E ih =>
    have hq : 1 ≤ q ∧ q ≤ c.n := hE.2 q List.mem_cons_self
    have hrest : ErrorPattern c E := ⟨hE.1.of_cons, fun p hp => hE.2 p (List.mem_cons_of_mem q hp)⟩
    calc syndrome c (flipPositions v ([q] ++ E))
        = syndrome c (flipPositions (flipAt v (q - 1)) E) := by rw [flipPositions_append hE, flipPositions_singleton]
      _ = syndrome c v ^^^ q ^^^ xorOf E := by rw [ih (by simpa using hv) hrest, syndrome_flipAt hv hq]
      _ = syndrome c v ^^^ xorOf (q :: E) := Nat.xor_assoc _ _ _

theorem syndrome_flipPositions_singleton {c : Config} {v : Bits} {q : Nat} (hv : v.length = c.n) (h1 : 1 ≤ q) (hn : q ≤ c.n) :
    syndrome c (flipPositions v [q]) = syndrome c v ^^^ q :=
  syndrome_flipAt hv ⟨h1, hn⟩

/-- An error in a valid codeword has the xor of its positions as the syndrome. -/
theorem syndrome_flipPositions_of_valid {c : Config} {v : Bits} {E : List Nat} (hv : ValidCodeword c v)
    (hE : ErrorPattern c E) : syndrome c (flipPositions v E) = xorOf E := by
  rw [syndrome_flipPositions hv.1 hE, hv.2, Nat.zero_xor]

theorem syndrome_flipPositions_pair {c : Config} {v : Bits} {a b : Nat} (hv : ValidCodeword c v) (hE : ErrorPattern c [a, b]) :
    syndrome c (flipPositions v [a, b]) = a ^^^ b := by
  rw [syndrome_flipPositions_of_valid hv hE, xorOf, List.foldr_cons, List.foldr_cons, List.foldr_nil, Nat.xor_zero]

/-- The xor of two distinct positions is neither 0 nor one of the two (R106 (a)). -/
theorem xor_ne_of_errorPattern {c : Config} {a b : Nat} (hE : ErrorPattern c [a, b]) :
    a ^^^ b ≠ 0 ∧ a ^^^ b ≠ a ∧ a ^^^ b ≠ b := by
  obtain ⟨hnodup, hrange⟩ := hE
  have hab : a ≠ b := by simpa using hnodup
  have ha : a ≠ 0 := Nat.ne_of_gt (hrange a (by simp)).1
  have hb : b ≠ 0 := Nat.ne_of_gt (hrange b (by simp)).1
  exact ⟨by simpa using hab, by simpa using hb, by simpa using ha⟩

/-- A codeword with some of its positions complemented is another one. -/
theorem flipPositions_ne {v : Bits} {E : List Nat} {q : Nat} (hq : q ∈ E) (h1 : 1 ≤ q) (hlen : q ≤ v.length) :
    flipPositions v E ≠ v := by
  intro h
  have hbit : (flipPositions v E)[q - 1]? = v[q - 1]? := by rw [h]
  have hmem : q - 1 ∈ E.map (· - 1) := List.mem_map_of_mem hq
  rw [flipPositions, getElem?_complementAt, List.getElem?_eq_getElem (by omega)] at hbit
  simp [hmem] at hbit

/-! ## Write mode (R99, R100) -/

theorem bitAt_writeParity_two_pow {c : Config} (v : Bits) {i : Nat} (hi : i < c.s) :
    bitAt (writeParity c v) (2 ^ i) = sind c v i := by
  rw [bitAt_writeParity ⟨Nat.one_le_two_pow, (two_pow_lt_n hi).le⟩, if_pos (isParityPos_two_pow i), Nat.log2_two_pow]

/-- Two codewords agree when they agree in the parity slots and in the data slots. -/
theorem eq_of_slots {c : Config} {v w : Bits} (hv : v.length = c.n) (hw : w.length = c.n)
    (hparity : ∀ i, i < c.s → bitAt v (2 ^ i) = bitAt w (2 ^ i))
    (hdata : ∀ p ∈ positions c.n, isParityPos p = false → bitAt v p = bitAt w p) : v = w := by
  refine eq_of_bitAt (hv.trans hw.symm) fun p h1 hp => ?_
  rw [hv] at hp
  cases hpar : isParityPos p with
  | true =>
    obtain ⟨i, hi, rfl⟩ := parityPos_lt hp hpar
    exact hparity i hi
  | false => exact hdata p (mem_positions.2 ⟨h1, hp⟩) hpar

theorem writeParity_writeParity {c : Config} {v : Bits} (hv : v.length = c.n) : writeParity c (writeParity c v) = v := by
  refine eq_of_slots (length_writeParity c _) hv (fun i hi => ?_) fun p hp hdata => ?_
  · rw [bitAt_writeParity_two_pow _ hi, sind_writeParity hi]
  · rw [bitAt_writeParity_of_data hp hdata, bitAt_writeParity_of_data hp hdata]

/-- The syndrome after write mode reads the old contents of the parity slots as a number. -/
theorem syndrome_writeParity (c : Config) (v : Bits) :
    syndrome c (writeParity c v) = ∑ i ∈ Finset.range c.s, 2 ^ i * (bitAt v (2 ^ i)).toNat := by
  change ∑ i ∈ Finset.range c.s, 2 ^ i * (sind c (writeParity c v) i).toNat = _
  exact Finset.sum_congr rfl fun i hi => by rw [sind_writeParity (Finset.mem_range.1 hi)]

/-! ## The loop of R99 -/

/-- The codeword after `k` turns of the loop. -/
def writtenSlots (c : Config) (v : Bits) (k : Nat) : Bits :=
  (List.range k).foldl (fun t i => t.set (2 ^ i - 1) (sind c t i)) v

theorem writtenSlots_s (c : Config) (v : Bits) : writtenSlots c v c.s = writeParityLoop c v := rfl

theorem writtenSlots_zero (c : Config) (v : Bits) : writtenSlots c v 0 = v := rfl

theorem writtenSlots_succ (c : Config) (v : Bits) (k : Nat) :
    writtenSlots c v (k + 1) = (writtenSlots c v k).set (2 ^ k - 1) (sind c (writtenSlots c v k) k) := by
  rw [writtenSlots, List.range_succ, List.foldl_append]
  rfl

@[simp] theorem length_writtenSlots (c : Config) (v : Bits) (k : Nat) : (writtenSlots c v k).length = v.length := by
  induction k with
  | zero => rfl
  | succ k ih => rw [writtenSlots_succ, List.length_set, ih]

theorem bitAt_set_same {v : Bits} {q : Nat} (b : Bit) (h1 : 1 ≤ q) (hq : q ≤ v.length) : bitAt (v.set (q - 1) b) q = b := by
  rw [bitAt, List.getD_eq_getElem?_getD, List.getElem?_set_self (by omega), Option.getD_some]

theorem bitAt_set_ne (v : Bits) {q p : Nat} (b : Bit) (hq : 1 ≤ q) (hp : 1 ≤ p) (hne : p ≠ q) :
    bitAt (v.set (q - 1) b) p = bitAt v p := by
  rw [bitAt, bitAt, List.getD_eq_getElem?_getD, List.getD_eq_getElem?_getD, List.getElem?_set_ne (by omega)]

theorem bitAt_writtenSlots_of_data (c : Config) (v : Bits) (k : Nat) {p : Nat} (hp : 1 ≤ p) (hdata : isParityPos p = false) :
    bitAt (writtenSlots c v k) p = bitAt v p := by
  induction k with
  | zero => rfl
  | succ k ih =>
    have hne : p ≠ 2 ^ k := by
      rintro rfl
      simp at hdata
    rw [writtenSlots_succ, bitAt_set_ne _ _ Nat.one_le_two_pow hp hne, ih]

/-- After `k` turns the slots below `2^k` are written; every turn still finds the `sind` of the input. -/
theorem bitAt_writtenSlots_two_pow {c : Config} {v : Bits} (hv : v.length = c.n) {k j : Nat} (hk : k ≤ c.s) :
    bitAt (writtenSlots c v k) (2 ^ j) = if j < k then sind c v j else bitAt v (2 ^ j) := by
  induction k generalizing j with
  | zero => rw [if_neg (Nat.not_lt_zero j), writtenSlots_zero]
  | succ k ih =>
    have hsind : sind c (writtenSlots c v k) k = sind c v k :=
      sind_congr (by rw [ih (by omega), if_neg (lt_irrefl k)])
        fun p hp => bitAt_writtenSlots_of_data c v k (mem_positions.1 hp).1
    have hslot : 2 ^ k ≤ (writtenSlots c v k).length := by
      rw [length_writtenSlots, hv]
      exact (two_pow_lt_n hk).le
    rw [writtenSlots_succ, hsind]
    by_cases hj : j = k
    · rw [hj, bitAt_set_same _ Nat.one_le_two_pow hslot, if_pos (Nat.lt_succ_self k)]
    · have hne : 2 ^ j ≠ 2 ^ k := fun h => hj (Nat.pow_right_injective le_rfl h)
      rw [bitAt_set_ne _ _ Nat.one_le_two_pow Nat.one_le_two_pow hne, ih (by omega)]
      exact if_congr (by omega) rfl rfl

theorem writeParityLoop_eq {c : Config} {v : Bits} (hv : v.length = c.n) : writeParityLoop c v = writeParity c v := by
  rw [← writtenSlots_s]
  refine eq_of_slots ((length_writtenSlots c v c.s).trans hv) (length_writeParity c v) (fun i hi => ?_) fun p hp hdata => ?_
  · rw [bitAt_writtenSlots_two_pow hv le_rfl, if_pos hi, bitAt_writeParity_two_pow v hi]
  · rw [bitAt_writtenSlots_of_data c v c.s (mem_positions.1 hp).1 hdata, bitAt_writeParity_of_data hp hdata]

/-! ## The encoder (R100, R107, R120) -/

/-- On a skeleton only the data slots enter the parity trees (R100). -/
theorem bitAt_encodeBlock_two_pow {c : Config} (d : Bits) {i : Nat} (hi : i < c.s) :
    bitAt (encodeBlock c d) (2 ^ i) = xorAt (buildSkeleton c d) ((cover c i).filter fun q => !isParityPos q) := by
  have hdata : (cover c i).filter (· ≠ 2 ^ i) = (cover c i).filter fun q => !isParityPos q :=
    List.filter_congr fun q hq => by simp [isParityPos_of_mem_cover hq]
  rw [encodeBlock, bitAt_writeParity_two_pow _ hi, sind_eq_xor_slot _ hi, bitAt_buildSkeleton_two_pow d hi, Bool.false_xor, hdata]

theorem buildSkeleton_xorBits (c : Config) {a b : Bits} (h : a.length = b.length) :
    buildSkeleton c (xorBits a b) = xorBits (buildSkeleton c a) (buildSkeleton c b) := by
  refine eq_of_bitAt (by simp [xorBits]) fun p h1 hp => ?_
  rw [length_buildSkeleton] at hp
  rw [bitAt_xorBits (by simp), bitAt_buildSkeleton ⟨h1, hp⟩, bitAt_buildSkeleton ⟨h1, hp⟩, bitAt_buildSkeleton ⟨h1, hp⟩]
  split
  · rfl
  · exact bitAt_xorBits h _

theorem writeParity_xorBits (c : Config) {a b : Bits} (h : a.length = b.length) :
    writeParity c (xorBits a b) = xorBits (writeParity c a) (writeParity c b) := by
  refine eq_of_bitAt (by simp [xorBits]) fun p h1 hp => ?_
  rw [length_writeParity] at hp
  rw [bitAt_xorBits (by simp), bitAt_writeParity ⟨h1, hp⟩, bitAt_writeParity ⟨h1, hp⟩, bitAt_writeParity ⟨h1, hp⟩]
  split
  · exact sind_xorBits c h _
  · exact bitAt_xorBits h p

theorem encodeBlock_xorBits (c : Config) {a b : Bits} (h : a.length = b.length) :
    encodeBlock c (xorBits a b) = xorBits (encodeBlock c a) (encodeBlock c b) := by
  rw [encodeBlock, buildSkeleton_xorBits c h, writeParity_xorBits c (by simp)]
  rfl

theorem encodeBlock_injective {c : Config} {a b : Bits} (ha : a.length = c.mode) (hb : b.length = c.mode)
    (h : encodeBlock c a = encodeBlock c b) : a = b := by
  rw [← decodeCodeword_encodeBlock_data ha, h, decodeCodeword_encodeBlock_data hb]

theorem writeParity_replicate_false (c : Config) : writeParity c (List.replicate c.n false) = List.replicate c.n false := by
  refine eq_of_slots (length_writeParity c _) List.length_replicate (fun i hi => ?_) fun p hp hdata => ?_
  · rw [bitAt_writeParity_two_pow _ hi, bitAt_replicate_false]
    exact xorAt_replicate_false c.n (cover c i)
  · exact bitAt_writeParity_of_data hp hdata

theorem encodeBlock_replicate_false (c : Config) :
    encodeBlock c (List.replicate c.mode false) = List.replicate c.n false := by
  rw [encodeBlock, buildSkeleton_replicate_false, writeParity_replicate_false]

/-- With `MODE = 8`: the equation of `bitAt_encodeBlock_two_pow` over the four coverage sets, and the block in the data slots. -/
theorem encodeBlock_of_mode_eight {c : Config} (hmode : c.mode = 8) (d0 d1 d2 d3 d4 d5 d6 d7 : Bit) :
    encodeBlock c [d0, d1, d2, d3, d4, d5, d6, d7] =
      [d0 ^^ d1 ^^ d3 ^^ d4 ^^ d6, d0 ^^ d2 ^^ d3 ^^ d5 ^^ d6, d0, d1 ^^ d2 ^^ d3 ^^ d7, d1, d2, d3,
        d4 ^^ d5 ^^ d6 ^^ d7, d4, d5, d6, d7] := by
  have hs : c.s = 4 := by rw [Config.s, hmode]; decide
  have hn : c.n = 12 := by rw [n_eq, hmode, hs]
  have hskeleton : buildSkeleton c [d0, d1, d2, d3, d4, d5, d6, d7] =
      [false, false, d0, false, d1, d2, d3, false, d4, d5, d6, d7] := by rw [buildSkeleton, hn]; rfl
  have hcovered : ∀ i < 4, ((cover c i).filter fun q => !isParityPos q) =
      [[3, 5, 7, 9, 11], [3, 6, 7, 10, 11], [5, 6, 7, 12], [9, 10, 11, 12]].getD i [] := by
    unfold cover
    rw [hn]
    decide
  have hslots : ((positions 12).filter fun p => !isParityPos p) = [3, 5, 6, 7, 9, 10, 11, 12] := by decide
  refine eq_of_slots (length_encodeBlock c _) hn.symm (fun i hi => ?parity) fun p hp hdata => ?data
  case parity =>
    have hi4 : i < 4 := hs ▸ hi
    rw [bitAt_encodeBlock_two_pow _ hi, hskeleton, hcovered i hi4]
    clear hi
    interval_cases i <;> simp [bitAt]
  case data =>
    have hmem : p ∈ [3, 5, 6, 7, 9, 10, 11, 12] := hslots ▸ List.mem_filter.2 ⟨hn ▸ hp, by simp [hdata]⟩
    rw [encodeBlock, bitAt_writeParity_of_data hp hdata, hskeleton]
    clear hp hdata
    fin_cases hmem <;> rfl

/-! ## Evaluate mode (R101, R105, R106) -/

theorem correct_of_position {c : Config} {v : Bits} {y : Nat} (hy : syndrome c v = y) (h1 : 1 ≤ y) (hn : y ≤ c.n) :
    correct c v = ⟨flipPositions v [y], y, false⟩ := by
  subst hy
  rw [correct, if_neg (by omega), if_pos hn, flipPositions_singleton]

theorem correct_of_n_lt {c : Config} {v : Bits} {y : Nat} (hy : syndrome c v = y) (hn : c.n < y) :
    correct c v = ⟨v, y, true⟩ := by
  subst hy
  rw [correct, if_neg (by omega), if_neg (by omega)]

/-- A correction leaves a valid codeword, whichever was sent (R101). -/
theorem validCodeword_flip_syndrome {c : Config} {v : Bits} {y : Nat} (hv : v.length = c.n) (hy : syndrome c v = y)
    (h1 : 1 ≤ y) (hn : y ≤ c.n) : ValidCodeword c (flipPositions v [y]) := by
  refine ⟨(length_flipPositions v _).trans hv, ?_⟩
  rw [syndrome_flipPositions_singleton hv h1 hn, hy, Nat.xor_self]

theorem syndrome_correct_cw {c : Config} {v : Bits} (hv : v.length = c.n) (hn : syndrome c v ≤ c.n) :
    syndrome c (correct c v).cw = 0 := by
  rcases Nat.eq_zero_or_pos (syndrome c v) with h0 | h1
  · rw [correct_of_syndrome_eq_zero h0, h0]
  · rw [correct_of_position rfl h1 hn]
    exact (validCodeword_flip_syndrome hv rfl h1 hn).2

theorem correct_flipPositions_singleton {c : Config} {v : Bits} {q : Nat} (hv : ValidCodeword c v) (h1 : 1 ≤ q) (hn : q ≤ c.n) :
    correct c (flipPositions v [q]) = ⟨v, q, false⟩ := by
  have hsynd : syndrome c (flipPositions v [q]) = q := by
    rw [syndrome_flipPositions_singleton hv.1 h1 hn, hv.2, Nat.zero_xor]
  rw [correct_of_position hsynd h1 hn, flipPositions_singleton, flipPositions_singleton, flipAt_flipAt]

/-! ## SYN, SYNW and SYNE (R102 to R104) -/

theorem exec_syn {s : State} (h : s.cwv = true) : exec .syn s = .next (respond (.syndrome (syndrome s.cfg s.cw)) s) :=
  exec_of_refusalCause_none (noValueError_eq_none.2 h)

theorem exec_synw {s : State} (h : s.cwv = true) :
    exec .synw s = .next (respond .done (updateCw (writeParity s.cfg s.cw) s)) :=
  exec_of_refusalCause_none (noValueError_eq_none.2 h)

theorem exec_syne {s : State} (h : s.cwv = true) :
    exec .syne s = .next (respond (.evaluation (syndrome s.cfg s.cw) (correct s.cfg s.cw).unc)
      (addErrors (correct s.cfg s.cw).unc.toNat (updateCw (correct s.cfg s.cw).cw s))) := by
  rw [← correct_synd]
  exact exec_of_refusalCause_none (noValueError_eq_none.2 h)

/-! ## The obligations -/

/-- Settles O19: a coverage set is the positions with one digit set; the double loop and the size are facts about that digit. -/
theorem coverageSets : Obligations.CoverageSets := by
  unfold Obligations.CoverageSets
  refine ⟨fun c i hi => ⟨fun q => ?loop, fun q => mem_cover, nodup_cover c i, fun k => two_pow_mem_cover hi, length_cover c i,
    List.ne_nil_of_mem ((two_pow_mem_cover hi).2 rfl)⟩, fun c q hq hdata => ?twoDigits, fun c hn => ?n12⟩
  case loop =>
    rw [mem_cover, testBit_iff_exists_group]
    constructor
    · rintro ⟨⟨-, hn⟩, k, j, hj, hq⟩
      exact ⟨k, j, hj, hq, hn⟩
    · rintro ⟨k, j, hj, hq, hn⟩
      have hpos := Nat.two_pow_pos i
      exact ⟨⟨by omega, hn⟩, k, j, hj, hq⟩
  case twoDigits =>
    have hrange := mem_positions.1 hq
    have hne : q ≠ 0 := Nat.ne_of_gt hrange.1
    obtain ⟨k, hk, hbit⟩ := exists_testBit_ne_log2 hne hdata
    have hlow : q ∈ cover c k := mem_cover.2 ⟨hrange, hbit⟩
    have hhigh : q ∈ cover c (Nat.log2 q) := mem_cover.2 ⟨hrange, Nat.testBit_log2 hne⟩
    exact ⟨k, Nat.log2 q, lt_s_of_mem_cover hlow, lt_s_of_mem_cover hhigh, hk, hlow, hhigh⟩
  case n12 =>
    unfold cover
    rw [hn]
    decide

/-- Settles O20: the digits of the sum and of the xor of the set positions are the parity trees. -/
theorem syndromeIsTheXorOfSetPositions : Obligations.SyndromeIsTheXorOfSetPositions := by
  unfold Obligations.SyndromeIsTheXorOfSetPositions
  refine fun c v => ⟨Nat.le_sub_one_of_lt (syndrome_lt c v), fun i hi => ?_, syndrome_eq_xorOfSetPositions c v,
    (validCodeword_replicate_false c).2⟩
  rw [testBit_syndrome, decide_eq_true hi, Bool.true_and]

/-- Settles O21: `syndrome_xorBits` and `syndrome_flipPositions`, the latter from all zeros and from any valid codeword. -/
theorem syndromeIsLinear : Obligations.SyndromeIsLinear := by
  unfold Obligations.SyndromeIsLinear
  refine ⟨fun c v _ => syndrome_eq_zero_iff_slots, validCodeword_replicate_false,
    fun c a b ha hb => syndrome_xorBits c (ha.trans hb.symm), fun c q h1 hn => ?_,
    fun c v E hv hE => syndrome_flipPositions_of_valid hv hE⟩
  obtain ⟨hlen, hzero⟩ := validCodeword_replicate_false c
  rw [syndrome_flipPositions_singleton hlen h1 hn, hzero, Nat.zero_xor]

/-- Settles O22: `writeParityLoop_eq` follows the loop turn by turn; the rest reads the result slot by slot. -/
theorem writeParityLoopIsTheClosedForm : Obligations.WriteParityLoopIsTheClosedForm := by
  unfold Obligations.WriteParityLoopIsTheClosedForm
  refine ⟨fun c v hv => ⟨length_writeParity c v, writeParityLoop_eq hv,
    fun i hi => ⟨bitAt_writeParity_two_pow v hi, sind_eq_xor_slot v hi⟩, fun q => bitAt_writeParity_of_data,
    syndrome_writeParity c v, syndrome_writeParity_eq_zero_iff, writeParity_writeParity hv⟩, fun c d _ => ?_⟩
  exact ⟨syndrome_encodeBlock c d, writeParity_writeParity (length_buildSkeleton c d)⟩

/-- Settles O23: the slots of a skeleton hold 0, so each tree reads its data positions alone. -/
theorem encoderParityEquations : Obligations.EncoderParityEquations := by
  unfold Obligations.EncoderParityEquations
  exact ⟨fun c d i _ hi => bitAt_encodeBlock_two_pow d hi,
    fun c d0 d1 d2 d3 d4 d5 d6 d7 hmode => encodeBlock_of_mode_eight hmode d0 d1 d2 d3 d4 d5 d6 d7⟩

/-- Settles O24: one lemma per case of `correct`. -/
theorem correctHasThreeCases : Obligations.CorrectHasThreeCases := by
  unfold Obligations.CorrectHasThreeCases
  refine fun c v hv => ⟨correct_synd c v, correct_of_syndrome_eq_zero, fun h1 hn => ?_, fun hn => ?_, hamming_correct_le_one hv⟩
  · rw [correct_of_position rfl h1 hn]
    exact ⟨rfl, validCodeword_flip_syndrome hv rfl h1 hn⟩
  · exact ⟨Nat.le_sub_one_of_lt (syndrome_lt c v), correct_of_n_lt rfl hn⟩

/-- Settles O26: SYN delivers the syndrome; two ones at positions 1 and 12 of a codeword with `N = 12` have syndrome 13. -/
theorem synComputesTheSyndrome : Obligations.SynComputesTheSyndrome := by
  unfold Obligations.SynComputesTheSyndrome
  refine ⟨fun s => ⟨rfl, exec_syn, fun h => ?refused⟩, fun c d i _ hi => ?skeleton, fun s hcwv hvalid => ?valid, ?above⟩
  case refused => exact exec_of_refusalCause_some (noValueError_eq_some.2 ⟨h, rfl⟩)
  case skeleton => rw [testBit_syndrome, decide_eq_true hi, Bool.true_and, encodeBlock, bitAt_writeParity_two_pow _ hi]
  case valid =>
    obtain ⟨-, hzero⟩ := hvalid
    exact ⟨_, exec_syn hcwv, by rw [respond_rsp, hzero]⟩
  case above =>
    exact ⟨Config.worked, [true, false, false, false, false, false, false, false, false, false, false, true], by decide⟩

/-- Settles O27: SYNW writes `writeParity`, which leaves the data slots; what ILV built becomes the encoder's codeword. -/
theorem synwFillsTheParitySlots : Obligations.SynwFillsTheParitySlots := by
  unfold Obligations.SynwFillsTheParitySlots
  refine ⟨fun s => ⟨rfl, exec_synw, fun h => ?refused⟩, fun c v q _ => bitAt_writeParity_of_data, writeParity_replicate_false,
    fun s d hd => ?afterIlv⟩
  case refused => exact exec_of_refusalCause_some (noValueError_eq_some.2 ⟨h, rfl⟩)
  case afterIlv =>
    refine ⟨_, _, _, exec_ilv hd, exec_synw rfl, exec_syn rfl, ?_⟩
    exact congrArg (fun y => some (Response.ok (.syndrome y))) (syndrome_encodeBlock s.cfg d)

/-- Settles O28: SYNE writes what `correct` gives; the second SYNE starts from a valid codeword or from the same one. -/
theorem syneCorrectsAndCounts : Obligations.SyneCorrectsAndCounts := by
  unfold Obligations.SyneCorrectsAndCounts
  refine ⟨fun s => ⟨rfl, exec_syne, fun h => ?refused⟩, fun s hcwv hvalid => ?valid, fun s q v hcwv hv h1 hn hcw => ?oneFlip,
    fun s hcwv hlen => ⟨_, _, exec_syne hcwv, exec_syne hcwv, fun hn => ?corrected, fun hn => ?failed⟩⟩
  case refused => exact exec_of_refusalCause_some (noValueError_eq_some.2 ⟨h, rfl⟩)
  case valid =>
    obtain ⟨-, hzero⟩ := hvalid
    refine ⟨_, exec_syne hcwv, ?_⟩
    simp [correct_of_syndrome_eq_zero hzero, hzero]
  case oneFlip =>
    have hcorrect := correct_flipPositions_singleton hv h1 hn
    have hsynd : syndrome s.cfg (flipPositions v [q]) = q := by rw [← correct_synd, hcorrect]
    refine ⟨_, exec_syne hcwv, ?_⟩
    simp [hcw, hcorrect, hsynd]
  case corrected =>
    have hzero := syndrome_correct_cw hlen hn
    simp [hzero, correct_unc, hn.not_gt]
  case failed =>
    simp [correct_of_n_lt rfl hn]

/-- Settles O29: the flipped position is the syndrome, and flipping it again restores the codeword. -/
theorem singleErrorIsCorrected : Obligations.SingleErrorIsCorrected := by
  unfold Obligations.SingleErrorIsCorrected
  refine ⟨fun c v q => correct_flipPositions_singleton, fun c v q hv h1 hn => ?_⟩
  rw [correct_synd, syndrome_flipPositions_singleton hv h1 hn]

/-- Settles O30: the syndrome is the xor of the flipped positions, and each case of `correct` has its lemma. -/
theorem multipleErrorsAreMiscorrectedOrReported : Obligations.MultipleErrorsAreMiscorrectedOrReported := by
  unfold Obligations.MultipleErrorsAreMiscorrectedOrReported
  refine ⟨fun c v E hv hE _ => ?synd, fun c v a b hv hE => ⟨?nonzero, fun hn => ?miscorrected, fun hn => ?reported⟩,
    fun c v hv => ?unseen, fun c v hfull => ?full⟩
  case synd => rw [correct_synd, syndrome_flipPositions_of_valid hv hE]
  case nonzero => exact (xor_ne_of_errorPattern hE).1
  case miscorrected =>
    obtain ⟨hzero, hxa, hxb⟩ := xor_ne_of_errorPattern hE
    have hpos := Nat.pos_of_ne_zero hzero
    have hsynd := syndrome_flipPositions_pair hv hE
    have hlen : (flipPositions v [a, b]).length = c.n := (length_flipPositions v _).trans hv.1
    have hthird : flipPositions v [a, b, a ^^^ b] = flipPositions (flipPositions v [a, b]) [a ^^^ b] :=
      flipPositions_append (errorPattern_concat hE (by simp [hxa, hxb]) ⟨hpos, hn⟩) v
    obtain ⟨h1, ha⟩ := hE.2 a List.mem_cons_self
    refine ⟨hxa, hxb, ?_, ?_, flipPositions_ne List.mem_cons_self h1 (hv.1 ▸ ha)⟩
    · rw [hthird, correct_of_position hsynd hpos hn]
    · rw [hthird]
      exact validCodeword_flip_syndrome hlen hsynd hpos hn
  case reported => exact correct_of_n_lt (syndrome_flipPositions_pair hv hE) hn
  case unseen => exact correct_of_syndrome_eq_zero (syndrome_flipPositions_of_valid hv (errorPattern_one_two_three c))
  case full =>
    obtain ⟨-, -, hnever, -⟩ := syndromeValueSpace
    exact hnever c v hfull

/-- Settles O31: the encoder's output is valid, and its two stages are linear. -/
theorem encoderOutputIsValidAndLinear : Obligations.EncoderOutputIsValidAndLinear := by
  unfold Obligations.EncoderOutputIsValidAndLinear
  refine ⟨fun c d _ => ?_, fun c a b ha hb => ⟨encodeBlock_xorBits c (ha.trans hb.symm), encodeBlock_injective ha hb⟩,
    encodeBlock_replicate_false⟩
  have hzero := syndrome_encodeBlock c d
  exact ⟨⟨length_encodeBlock c d, hzero⟩, correct_of_syndrome_eq_zero hzero⟩

end Sys2Proof.Machine

/-! PROOF. The codec family (43_codec R121 to R129, 44_noise R144). Per codeword: a valid codeword is the encoding of its own data slots
(`encodeBlock_stripParity`), so two of them never share a block. Per stream: `segment` cuts the stream into the codewords it was made of,
and a stream whose codewords decode to the blocks of `b` decodes to `padTo b` (`DecodesTo`). -/

namespace Sys2Proof.Machine

/-! ## ENCB and DECB (R121, R123) -/

theorem exec_rdcw {s : State} (h : s.cwv = true) : exec .rdcw s = .next (respond (.codeword s.cw) s) :=
  exec_of_refusalCause_none (noValueError_eq_none.2 h)

theorem exec_encb {s : State} {d : Bits} (hd : d.length = s.cfg.mode) :
    exec (.encb d) s = .next (respond (.codeword (encodeBlock s.cfg d)) (setCw (encodeBlock s.cfg d) s)) :=
  exec_of_refusalCause_none (blockError_eq_none.2 hd)

theorem exec_ldcw {s : State} {v : Bits} (hv : v.length = s.cfg.n) : exec (.ldcw v) s = .next (respond .done (setCw v s)) :=
  exec_of_refusalCause_none (codewordError_eq_none.2 hv)

theorem exec_decb {s : State} {v : Bits} (hv : v.length = s.cfg.n) :
    exec (.decb v) s = .next (respond
      (.decoded (stripParity s.cfg (correct s.cfg v).cw) (syndrome s.cfg v) (correct s.cfg v).unc)
      (addErrors (correct s.cfg v).unc.toNat (setCw (correct s.cfg v).cw s))) := by
  rw [← correct_synd]
  exact exec_of_refusalCause_none (codewordError_eq_none.2 hv)

/-- DECB where the three parts of the correction are known. -/
theorem exec_decb_of_correct {s : State} {v w : Bits} {y : Nat} {unc : Bit} (hv : v.length = s.cfg.n)
    (hc : correct s.cfg v = ⟨w, y, unc⟩) :
    exec (.decb v) s = .next (respond (.decoded (stripParity s.cfg w) y unc) (addErrors unc.toNat (setCw w s))) := by
  rw [exec_decb hv, ← correct_synd, hc]

/-! ## A valid codeword and its block (R120, R123) -/

/-- A valid codeword is the encoding of its data slots: each parity slot holds the parity of data slots alone. -/
theorem encodeBlock_stripParity {c : Config} {v : Bits} (hv : ValidCodeword c v) : encodeBlock c (stripParity c v) = v := by
  obtain ⟨hlen, hzero⟩ := hv
  have hdata : ∀ p ∈ positions c.n, isParityPos p = false → bitAt (encodeBlock c (stripParity c v)) p = bitAt v p := by
    intro p hp hpar
    rw [encodeBlock, bitAt_writeParity_of_data hp hpar, buildSkeleton_stripParity, bitAt_map_positions _ (mem_positions.1 hp),
      if_neg (by simp [hpar])]
  refine eq_of_slots (length_encodeBlock c _) hlen (fun i hi => ?parity) hdata
  rw [syndrome_eq_zero_iff_slots.1 (syndrome_encodeBlock c _) i hi, syndrome_eq_zero_iff_slots.1 hzero i hi]
  refine xorAt_congr fun q hq => ?_
  obtain ⟨hcover, hne⟩ := List.mem_filter.1 hq
  exact hdata q (mem_positions.2 (mem_cover.1 hcover).1) (by simpa [isParityPos_of_mem_cover hcover] using hne)

/-- The data slots of the encoder's output are its block. -/
theorem stripParity_encodeBlock {c : Config} {d : Bits} (hd : d.length = c.mode) : stripParity c (encodeBlock c d) = d := by
  have h := decodeCodeword_encodeBlock_data hd
  rwa [decodeCodeword, correct_of_syndrome_eq_zero (syndrome_encodeBlock c d)] at h

theorem validCodeword_encodeBlock (c : Config) (d : Bits) : ValidCodeword c (encodeBlock c d) :=
  ⟨length_encodeBlock c d, syndrome_encodeBlock c d⟩

/-- A correction onto another valid codeword than the one sent delivers another block than the one sent (R123). -/
theorem stripParity_ne_of_validCodeword {c : Config} {v d : Bits} (hv : ValidCodeword c v) (h : v ≠ encodeBlock c d) :
    stripParity c v ≠ d := by
  rintro rfl
  exact h (encodeBlock_stripParity hv).symm

/-! ## Streams codeword by codeword (R124, R126) -/

/-- ENCS puts one codeword after the other, and cutting by `N` finds them again. -/
theorem segment_encodeStream (c : Config) (b : Bits) :
    segment (encodeStream c b) c.n = (segment (padTo b c.mode) c.mode).map (encodeBlock c) :=
  segment_flatten (n_pos c) (by simp)

theorem take_drop_encodeStream {c : Config} {b : Bits} {k : Nat} (hk : k < (b.length + c.mode - 1) / c.mode) :
    ((encodeStream c b).drop (k * c.n)).take c.n =
      encodeBlock c (((padTo b c.mode).drop (k * c.mode)).take c.mode) := by
  have hout : k < (encodeStream c b).length / c.n := by rwa [length_encodeStream, Nat.mul_div_cancel _ (n_pos c)]
  have hpad : k < (padTo b c.mode).length / c.mode := by rwa [length_padTo c.mode_pos, Nat.mul_div_cancel _ c.mode_pos]
  apply Option.some.inj
  rw [← getElem?_segment hout, segment_encodeStream, List.getElem?_map, getElem?_segment hpad, Option.map_some]

/-- `decodedBits` as R126 writes it, codeword `k` starting at bit `k * N`. -/
theorem decodedBits_eq_flatten_range (c : Config) (e : Bits) :
    decodedBits c e =
      ((List.range (e.length / c.n)).map fun k => (decodeCodeword c ((e.drop (k * c.n)).take c.n)).data).flatten := by
  rw [decodedBits, segment, List.flatMap_map, List.flatMap_def]

theorem uncorrectable_eq_sum_range (c : Config) (e : Bits) :
    uncorrectable c e =
      ∑ k ∈ Finset.range (e.length / c.n), (decodeCodeword c ((e.drop (k * c.n)).take c.n)).unc.toNat := by
  rw [uncorrectable, segment, List.map_map, ← List.toFinset_range, List.sum_toFinset _ List.nodup_range]
  rfl

/-! ## Codewords that decode to a given block (R128, R129) -/

/-- `w` is decoded to the block `d` and not reported as uncorrectable. -/
def DecodesTo (c : Config) (d w : Bits) : Prop := (decodeCodeword c w).data = d ∧ (decodeCodeword c w).unc = false

/-- `correct_flipPositions_singleton` for a sequence index, as draws count. -/
theorem correct_flipAt {c : Config} {v : Bits} {r : Nat} (hv : ValidCodeword c v) (hr : r < c.n) :
    correct c (flipAt v r) = ⟨v, r + 1, false⟩ := by
  have h := correct_flipPositions_singleton hv (Nat.le_add_left 1 r) hr
  rwa [flipPositions_singleton, Nat.add_sub_cancel] at h

/-- `w'` is the codeword `w` with no bit or one bit flipped (R129). -/
def AtMostOneFlip (c : Config) (w w' : Bits) : Prop := w' = w ∨ ∃ r, r < c.n ∧ w' = flipAt w r

/-- One flipped bit in the encoder's output is corrected (R105), so the decoder returns the block. -/
theorem decodesTo_of_atMostOneFlip {c : Config} {d w : Bits} (hd : d.length = c.mode)
    (h : AtMostOneFlip c (encodeBlock c d) w) : DecodesTo c d w := by
  have hcorrect : ∃ y, correct c w = ⟨encodeBlock c d, y, false⟩ := by
    obtain rfl | ⟨r, hr, rfl⟩ := h
    · exact ⟨0, correct_of_syndrome_eq_zero (syndrome_encodeBlock c d)⟩
    · exact ⟨r + 1, correct_flipAt (validCodeword_encodeBlock c d) hr⟩
  obtain ⟨y, hy⟩ := hcorrect
  rw [DecodesTo, decodeCodeword, hy]
  exact ⟨stripParity_encodeBlock hd, rfl⟩

/-- A stream whose codewords decode to the blocks `ds` decodes to their concatenation, with nothing counted. -/
theorem decoded_of_forall₂_decodesTo {c : Config} {e : Bits} {ds : List Bits}
    (h : List.Forall₂ (DecodesTo c) ds (segment e c.n)) : decodedBits c e = ds.flatten ∧ uncorrectable c e = 0 := by
  rw [decodedBits, uncorrectable]
  generalize segment e c.n = ws at h
  induction h with
  | nil => exact ⟨rfl, rfl⟩
  | cons hw _ ih =>
    obtain ⟨hdata, hunc⟩ := hw
    obtain ⟨ihdata, ihunc⟩ := ih
    rw [List.flatMap_cons, List.flatten_cons, List.map_cons, List.sum_cons, hdata, ihdata, hunc, ihunc]
    exact ⟨rfl, rfl⟩

/-- With at most one flip in each codeword of an encoded stream, every codeword still decodes to its block (R129). -/
theorem decoded_of_atMostOneFlip {c : Config} {b e : Bits}
    (h : List.Forall₂ (AtMostOneFlip c) (segment (encodeStream c b) c.n) (segment e c.n)) :
    decodedBits c e = padTo b c.mode ∧ uncorrectable c e = 0 := by
  have hblocks : (segment (padTo b c.mode) c.mode).flatten = padTo b c.mode := by
    rw [flatten_segment c.mode_pos, padTo_length_mod c.mode_pos, Nat.sub_zero, List.take_length]
  rw [segment_encodeStream, List.forall₂_map_left_iff] at h
  rw [← hblocks]
  refine decoded_of_forall₂_decodesTo (((List.forall₂_and_left ..).2 ⟨fun d => length_of_mem_segment, h⟩).imp ?_)
  rintro d w ⟨hd, hw⟩
  exact decodesTo_of_atMostOneFlip hd hw

theorem decodeStream_of_atMostOneFlip {c : Config} {b e : Bits}
    (h : List.Forall₂ (AtMostOneFlip c) (segment (encodeStream c b) c.n) (segment e c.n)) :
    decodeStream c e = decodeStream c (encodeStream c b) ∧ uncorrectable c e = 0 := by
  obtain ⟨hbits, hcount⟩ := decoded_of_atMostOneFlip h
  exact ⟨by rw [decodeStream, hbits, decodeStream, decodedBits_encodeStream], hcount⟩

theorem uncorrectable_encodeStream (c : Config) (b : Bits) : uncorrectable c (encodeStream c b) = 0 :=
  (decoded_of_atMostOneFlip (List.forall₂_same.2 fun _ _ => .inl rfl)).2

/-! ## NOISE1 codeword by codeword (R144) -/

theorem segment_noiseOne (c : Config) (b : Bits) (draws : List Nat) :
    segment (noiseOne c b draws) c.n = List.zipWith flipAt (segment b c.n) draws := by
  refine segment_flatten (n_pos c) fun w hw => ?_
  obtain ⟨k, hk, rfl⟩ := List.getElem_of_mem hw
  rw [List.getElem_zipWith, length_flipAt]
  exact length_of_mem_segment (List.getElem_mem _)

/-- Codeword `k` of the result is codeword `k` of the operand with index `R[k]` complemented. -/
theorem take_drop_noiseOne {c : Config} {b : Bits} {draws : List Nat} (hlen : b.length / c.n ≤ draws.length) {k r : Nat}
    (hk : k < b.length / c.n) (hr : draws[k]? = some r) :
    ((noiseOne c b draws).drop (k * c.n)).take c.n = flipAt ((b.drop (k * c.n)).take c.n) r := by
  have hout : k < (noiseOne c b draws).length / c.n := by rwa [length_noiseOne hlen, Nat.mul_div_cancel _ (n_pos c)]
  apply Option.some.inj
  rw [← getElem?_segment hout, segment_noiseOne, List.getElem?_zipWith, getElem?_segment hk, hr]

/-- Every draw that NOISE1 uses is one flip within its codeword. -/
theorem atMostOneFlip_noiseOne {c : Config} {b : Bits} {draws : List Nat} (hlen : b.length / c.n ≤ draws.length)
    (hrange : ∀ r ∈ draws.take (b.length / c.n), r < c.n) :
    List.Forall₂ (AtMostOneFlip c) (segment b c.n) (segment (noiseOne c b draws) c.n) := by
  rw [segment_noiseOne, List.forall₂_iff_get]
  refine ⟨by simp [hlen], fun k hk _ => ?_⟩
  rw [length_segment] at hk
  exact .inr ⟨draws[k], hrange _ (List.mem_take_iff_getElem.2 ⟨k, by omega, rfl⟩), by simp⟩

/-- A sequence and the same sequence with one bit complemented differ in that index and nowhere else (R141). -/
theorem getElem?_flipAt_ne_iff {v : Bits} {r i : Nat} (hi : i < v.length) : (flipAt v r)[i]? ≠ v[i]? ↔ i = r := by
  rw [getElem?_flipAt, List.getElem?_eq_getElem hi]
  by_cases h : i = r <;> simp [h]

/-- An index within group `k` of a sequence. -/
theorem getElem?_group {v : Bits} {n k i : Nat} (hi : i < n) : ((v.drop (k * n)).take n)[i]? = v[k * n + i]? := by
  rw [List.getElem?_take_of_lt hi, List.getElem?_drop]

/-! ## The obligations -/

/-- Settles O32: the skeleton of ILV becomes the encoder's codeword in SYNW, and RDCW delivers it. -/
theorem encbEncodesOneBlock : Obligations.EncbEncodesOneBlock := by
  unfold Obligations.EncbEncodesOneBlock
  refine fun s d => ⟨rfl, fun hd => ⟨exec_encb hd, fun p => bitAt_writeParity_of_data, ?sequence⟩, fun hd => ?refused⟩
  case sequence => exact ⟨_, _, exec_ilv hd, exec_synw rfl, (exec_rdcw rfl).trans (exec_encb hd).symm⟩
  case refused => exact exec_of_refusalCause_some (blockError_eq_some.2 ⟨hd, rfl⟩)

/-- Settles O33: DECB does what `correct` says of its codeword; two flips land on another valid codeword or above `N`. -/
theorem decbDecodesOneCodeword : Obligations.DecbDecodesOneCodeword := by
  unfold Obligations.DecbDecodesOneCodeword
  refine ⟨fun s v => ⟨rfl, fun hv => ?effect, fun hv => ?refused⟩,
    fun s d hd => ⟨?valid, fun q h1 hn => ?oneFlip, fun a b hE => ?twoFlips⟩⟩
  case effect =>
    exact ⟨exec_decb hv, _, _, _, exec_ldcw hv, exec_syne rfl, exec_dlv rfl, rfl, rfl, exec_decb hv⟩
  case refused => exact exec_of_refusalCause_some (codewordError_eq_some.2 ⟨hv, rfl⟩)
  case valid =>
    have hcorrect := correct_of_syndrome_eq_zero (syndrome_encodeBlock s.cfg d)
    refine ⟨_, exec_decb_of_correct (length_encodeBlock s.cfg d) hcorrect, ?_⟩
    rw [respond_rsp, stripParity_encodeBlock hd]
  case oneFlip =>
    have hcorrect := correct_flipPositions_singleton (validCodeword_encodeBlock s.cfg d) h1 hn
    refine ⟨_, exec_decb_of_correct (by simp) hcorrect, ?_⟩
    rw [respond_rsp, stripParity_encodeBlock hd]
  case twoFlips =>
    obtain ⟨-, hpair, -, -⟩ := multipleErrorsAreMiscorrectedOrReported
    obtain ⟨-, hmiscorrected, hreported⟩ := hpair s.cfg _ a b (validCodeword_encodeBlock s.cfg d) hE
    rcases Nat.lt_or_ge s.cfg.n (a ^^^ b) with hn | hn
    · refine ⟨_, _, exec_decb_of_correct (by simp) (hreported hn), ?_, fun hle => absurd hn hle.not_gt, fun _ => rfl⟩
      rw [respond_rsp, decide_eq_true hn]
    · obtain ⟨-, -, hcorrect, hvalid, hne⟩ := hmiscorrected hn
      refine ⟨_, _, exec_decb_of_correct (by simp) hcorrect, ?_,
        fun _ => ⟨rfl, rfl, stripParity_ne_of_validCodeword hvalid hne⟩, fun hgt => absurd hgt hn.not_gt⟩
      rw [respond_rsp, decide_eq_false hn.not_gt]

/-- Settles O34: the result's groups are the encoded blocks of the padded operand; ENCS is refused by a length fault alone. -/
theorem encsEncodesTheStream : Obligations.EncsEncodesTheStream := by
  unfold Obligations.EncsEncodesTheStream
  rintro s b K rfl
  refine ⟨rfl, padTo_eq_append_roundUp s.cfg.mode_pos b, roundUp_sub_lt s.cfg.mode_pos _, fun hoperand hresult => ?ok,
    fun hlong => ?refused⟩
  case ok =>
    have hlen : ¬LengthFault s.cfg (.encs b) := not_or.2 ⟨not_not.2 hoperand, not_not.2 hresult⟩
    exact ⟨_, exec_of_refusalCause_none (refusalCause_of_not_readsCw hlen id rfl), _, rfl, length_encodeStream s.cfg b,
      fun k => take_drop_encodeStream⟩
  case refused => exact exec_of_refusalCause_some (refusalCause_of_lengthFault (i := .encs b) (not_and_or.1 hlong))

/-- Settles O35: the data and the count of the statement are `decodedBits` and `uncorrectable`. -/
theorem decsDecodesTheStream : Obligations.DecsDecodesTheStream := by
  unfold Obligations.DecsDecodesTheStream
  rintro s e K w data u rfl rfl hdata hu
  rw [← decodedBits_eq_flatten_range] at hdata
  rw [← uncorrectable_eq_sum_range] at hu
  subst hdata hu
  refine ⟨rfl, fun hfit => ⟨_, exec_of_refusalCause_none (refusalCause_decs_eq_none hfit), rfl⟩, fun hlong => ?refused,
    length_decodedBits s.cfg e, length_decodeStream s.cfg e, fun hshort => ?short⟩
  case refused => exact exec_of_refusalCause_some (refusalCause_of_lengthFault (i := .decs e) hlong)
  case short => rw [decodedBits, uncorrectable, segment_eq_nil hshort]; exact ⟨rfl, rfl⟩

/-- Settles O36: without a sequence limit no operation of the chain is refused, and DECS undoes ENCS up to the padding. -/
theorem streamRoundTrip : Obligations.StreamRoundTrip := by
  unfold Obligations.StreamRoundTrip
  refine ⟨fun s y K hunbounded hK => ?_, decodedBits_encodeStream⟩
  have hfit : ∀ len, WithinSeqmax s.cfg len := fun len m hm => by simp [hunbounded] at hm
  have hser : ¬LengthFault s.cfg (.ser8 y) := not_not.2 (hfit _)
  have hencs : ¬LengthFault s.cfg (.encs (bytesToBits y)) := not_or.2 ⟨not_not.2 (hfit _), not_not.2 (hfit _)⟩
  refine ⟨_, _, _, _, _, exec_of_refusalCause_none (refusalCause_of_not_readsCw hser id rfl), rfl,
    exec_of_refusalCause_none (refusalCause_of_not_readsCw hencs id rfl), rfl,
    exec_of_refusalCause_none (refusalCause_decs_eq_none (hfit _)), ?_⟩
  rw [completed_rsp, resultOf, hK]
  simp [decodeStream_encodeStream_bytesToBits, uncorrectable_encodeStream]

/-- Settles O37: every codeword with at most one flip decodes to its block, and NOISE1 makes one flip in each. -/
theorem streamWithOneErrorPerCodeword : Obligations.StreamWithOneErrorPerCodeword := by
  unfold Obligations.StreamWithOneErrorPerCodeword
  refine ⟨fun c b e' _ => decodeStream_of_atMostOneFlip, fun c b draws hlen hrange k hk => ?noise,
    fun c b draws hlen hrange => decodeStream_of_atMostOneFlip (atMostOneFlip_noiseOne hlen hrange)⟩
  case noise =>
    have hdraw : draws[k]? = some draws[k] := List.getElem?_eq_getElem (by omega)
    have hr : draws[k] < c.n := hrange _ (List.mem_take_iff_getElem.2 ⟨k, by omega, rfl⟩)
    have hgroup : ((b.drop (k * c.n)).take c.n).length = c.n :=
      length_of_mem_segment (List.mem_of_getElem? (getElem?_segment hk))
    have hflip := take_drop_noiseOne hlen hk hdraw
    refine ⟨hflip ▸ hamming_flipAt (by omega), fun i hi => ?_⟩
    rw [← getElem?_group hi, ← getElem?_group hi, hflip, getElem?_flipAt_ne_iff (by omega), hdraw, Option.some_inj, eq_comm]

end Sys2Proof.Machine

/-! PROOF. The noise family (44_noise R141 to R143, R145, R192). Complementing a set of indices changes as many bits as the set has
elements, one for a single index. NOISE1 and NOISE4 both pair codeword `k` with its own draws, so one lemma
(`zipWith_segment_eq_map_range`) reads the results of both codeword by codeword. -/

namespace Sys2Proof.Machine

/-! ## Complementing indices (R141, R145) -/

/-- Complementing indices is the xor with ones at these indices. -/
theorem complementAt_eq_xorBits (v : Bits) (T : List Nat) :
    complementAt v T = xorBits v (complementAt (List.replicate v.length false) T) := by
  apply List.ext_getElem (by simp [xorBits])
  intro i _ _
  by_cases hT : i ∈ T <;> simp [xorBits, complementAt, hT]

/-- As many bits change as there are distinct indices (R145). -/
theorem hamming_complementAt_eq_card {v : Bits} {T : List Nat} (h : ∀ i ∈ T, i < v.length) :
    hamming v (complementAt v T) = T.toFinset.card := by
  have hset : ((List.range v.length).filter fun i => decide (i ∈ T)).toFinset = T.toFinset := by
    ext i
    simpa using h i
  rw [hamming_complementAt, List.countP_eq_length_filter, ← hset, List.toFinset_card_of_nodup (List.nodup_range.filter _)]

/-! ## Refusals for an operand (R58, R166) -/

theorem exec_of_lengthFault {i : Instr} {s : State} (h : LengthFault s.cfg i) : exec i s = .next (refuse .len s) :=
  exec_of_refusalCause_some (refusalCause_of_lengthFault h)

theorem exec_of_positionFault {i : Instr} {s : State} (hlen : ¬LengthFault s.cfg i) (h : PositionFault s.cfg i) :
    exec i s = .next (refuse .pos s) :=
  exec_of_refusalCause_some (refusalCause_of_positionFault hlen h)

/-! ## FLIP1 (R142) -/

theorem exec_flip1 {s : State} {r : Nat} (hr : r < s.cfg.n) (h : s.cwv = true) :
    exec (.flip1 r) s = .next (respond .done (updateCw (flipAt s.cw r) s)) :=
  exec_of_refusalCause_none (refusalCause_flip1_eq_none.2 ⟨hr, h⟩)

theorem syndrome_flipAt_of_valid {c : Config} {v : Bits} {r : Nat} (hv : ValidCodeword c v) (hr : r < c.n) :
    syndrome c (flipAt v r) = r + 1 := by
  rw [← correct_synd, correct_flipAt hv hr]

/-! ## Codewords and their draws (R143, R145) -/

theorem length_group {α : Type} {b : List α} {n k : Nat} (h : k < b.length / n) : ((b.drop (k * n)).take n).length = n :=
  length_of_mem_segment (List.mem_of_getElem? (getElem?_segment h))

/-- Pairing each codeword with an element of its own, written over the numbers of the codewords. -/
theorem zipWith_segment_eq_map_range {α β γ : Type} (f : List α → β → γ) {b : List α} {n : Nat} {ys : List β} {y : Nat → β}
    (h : ∀ k, k < b.length / n → ys[k]? = some (y k)) :
    List.zipWith f (segment b n) ys = (List.range (b.length / n)).map fun k => f ((b.drop (k * n)).take n) (y k) := by
  apply List.ext_getElem?
  intro k
  rcases Nat.lt_or_ge k (b.length / n) with hk | hk
  · rw [List.getElem?_zipWith, getElem?_segment hk, h k hk, List.getElem?_map, List.getElem?_range hk, Option.map_some]
  · rw [List.getElem?_eq_none (by rw [List.length_zipWith, length_segment]; omega), List.getElem?_eq_none (by simpa using hk)]

theorem noiseOne_eq_flatten_range {c : Config} {b : Bits} {draws : List Nat} (h : b.length / c.n ≤ draws.length) :
    noiseOne c b draws =
      ((List.range (b.length / c.n)).map fun k => flipAt ((b.drop (k * c.n)).take c.n) (draws.getD k 0)).flatten := by
  refine congrArg List.flatten (zipWith_segment_eq_map_range flipAt fun k hk => ?_)
  rw [List.getElem?_eq_getElem (by omega), List.getD_eq_getElem]

theorem noiseFour_eq_flatten_range {c : Config} {b : Bits} {draws : List Nat} (h : 4 * (b.length / c.n) ≤ draws.length) :
    noiseFour c b draws =
      ((List.range (b.length / c.n)).map fun k =>
        complementAt ((b.drop (k * c.n)).take c.n) ((draws.drop (4 * k)).take 4)).flatten := by
  refine congrArg List.flatten (zipWith_segment_eq_map_range complementAt fun k hk => ?_)
  rw [getElem?_segment (by omega), Nat.mul_comm]

/-- The four draws of codeword `k` are among those NOISE4 uses. -/
theorem mem_take_of_mem_group {draws : List Nat} {k K r : Nat} (hk : k < K) (hr : r ∈ (draws.drop (4 * k)).take 4) :
    r ∈ draws.take (4 * K) := by
  rw [List.take_drop] at hr
  exact List.take_subset_take_left _ (by omega) (List.mem_of_mem_drop hr)

/-- Four draws are 1 to 4 distinct ones (R145). -/
theorem card_group_bounds {draws : List Nat} {j : Nat} (h : j + 4 ≤ draws.length) :
    1 ≤ ((draws.drop j).take 4).toFinset.card ∧ ((draws.drop j).take 4).toFinset.card ≤ 4 := by
  have hlen : ((draws.drop j).take 4).length = 4 := by simp; omega
  have hne : (draws.drop j).take 4 ≠ [] := List.ne_nil_of_length_pos (by omega)
  exact ⟨Finset.card_pos.2 (List.toFinset_nonempty_iff _ |>.2 hne), (List.toFinset_card_le _).trans hlen.le⟩

/-! ## NOISE1 and NOISE4 (R143, R145) -/

theorem exec_noise1 {s : State} {b : Bits} {draws : List Nat} (hlen : ¬LengthFault s.cfg (.noise1 b draws))
    (hrange : ∀ r ∈ draws.take (b.length / s.cfg.n), r < s.cfg.n) :
    exec (.noise1 b draws) s = .next (respond (.bits (noiseOne s.cfg b draws)) (dropCw s)) :=
  exec_of_refusalCause_none ((refusalCause_noise1 hlen).trans (drawRangeError_eq_none.2 hrange))

theorem exec_noise4 {s : State} {b : Bits} {draws : List Nat} (hlen : ¬LengthFault s.cfg (.noise4 b draws))
    (hrange : ∀ r ∈ draws.take (4 * (b.length / s.cfg.n)), r < s.cfg.n) :
    exec (.noise4 b draws) s = .next (respond (.bits (noiseFour s.cfg b draws)) (dropCw s)) :=
  exec_of_refusalCause_none ((refusalCause_noise4 hlen).trans (drawRangeError_eq_none.2 hrange))

/-! ## The obligations -/

/-- Settles O40: what `complementAt` does to each bit, for the single index `r`. -/
theorem flipAtChangesOneBit : Obligations.FlipAtChangesOneBit := by
  unfold Obligations.FlipAtChangesOneBit
  refine fun v r hr => ⟨length_flipAt v r, fun i b hb => ?bit, hamming_flipAt hr, flipAt_flipAt v r, ?xor⟩
  case bit => rw [getElem?_flipAt, hb, Option.map_some]
  case xor =>
    rw [flipPositions_singleton, Nat.add_sub_cancel]
    exact complementAt_eq_xorBits v [r]

/-- Settles O41: the draw is checked before the value of `CW`; on a valid codeword SYNE then finds the flip and undoes it. -/
theorem flip1FlipsOneBit : Obligations.Flip1FlipsOneBit := by
  unfold Obligations.Flip1FlipsOneBit
  refine ⟨fun s r => ⟨rfl, fun hr => ?pos, fun hr hcwv => ?noVal, exec_flip1⟩, fun s r hr hcwv hlen => ?twice,
    fun s r hr hcwv hvalid => ?evaluated,
    fun c => ⟨isParityPos_two_pow 0, (Nat.sub_add_cancel (n_pos c)).symm ▸ isParityPos_n c, n_lt_two_pow c⟩⟩
  case pos => exact exec_of_positionFault (i := .flip1 r) id hr
  case noVal =>
    apply exec_of_refusalCause_some
    rw [refusalCause_of_operands_ok (i := .flip1 r) id hr.not_ge]
    exact noValueError_eq_some.2 ⟨hcwv, rfl⟩
  case twice =>
    exact ⟨_, _, exec_flip1 hr hcwv, exec_flip1 hr hcwv, hamming_flipAt (hlen ▸ hr), flipAt_flipAt s.cw r⟩
  case evaluated =>
    have hsynd := syndrome_flipAt_of_valid hvalid hr
    have hcorrect := correct_flipAt hvalid hr
    refine ⟨_, _, _, exec_flip1 hr hcwv, exec_syn hcwv, ?_, exec_syne hcwv, ?_, ?_⟩
    · simp [hsynd]
    · simp [hsynd, hcorrect]
    · simp [hcorrect]

/-- Settles O42: the result codeword by codeword is `noiseOne_eq_flatten_range`; the lengths are checked before the draws. -/
theorem noise1FlipsOneBitPerCodeword : Obligations.Noise1FlipsOneBitPerCodeword := by
  unfold Obligations.Noise1FlipsOneBitPerCodeword
  rintro s b draws K rfl
  have hlen (hfit : WithinSeqmax s.cfg b.length) (hcount : b.length / s.cfg.n ≤ draws.length) :
      ¬LengthFault s.cfg (.noise1 b draws) := not_or.2 ⟨hcount.not_gt, not_not.2 hfit⟩
  refine ⟨rfl, fun hfit hcount hrange => ?ok, fun _ hfew => ?few,
    fun hfit hcount hout => exec_of_positionFault (hlen hfit hcount) hout, fun hlong => ?long⟩
  case ok =>
    refine ⟨_, exec_noise1 (hlen hfit hcount) hrange, ?_⟩
    rw [noiseOne_eq_flatten_range hcount]
    rfl
  case few => exact exec_of_lengthFault (i := .noise1 b draws) (.inl hfew)
  case long => exact exec_of_lengthFault (i := .noise1 b draws) (.inr hlong)

/-- Settles O43: as NOISE1, with the four draws of a codeword as a set: its size is the number of changed bits. -/
theorem noise4FlipsUpToFourBitsPerCodeword : Obligations.Noise4FlipsUpToFourBitsPerCodeword := by
  unfold Obligations.Noise4FlipsUpToFourBitsPerCodeword
  rintro s b draws K rfl
  have hlen (hfit : WithinSeqmax s.cfg b.length) (hcount : 4 * (b.length / s.cfg.n) ≤ draws.length) :
      ¬LengthFault s.cfg (.noise4 b draws) := not_or.2 ⟨hcount.not_gt, not_not.2 hfit⟩
  refine ⟨rfl, fun hfit hcount hrange => ⟨?ok, fun k hk => ⟨?distance, card_group_bounds (by omega)⟩⟩,
    fun v T i x hx => ?bit, fun _ hfew => ?few, fun hfit hcount hout => exec_of_positionFault (hlen hfit hcount) hout,
    fun hlong => ?long⟩
  case ok =>
    refine ⟨_, exec_noise4 (hlen hfit hcount) hrange, ?_⟩
    rw [noiseFour_eq_flatten_range hcount]
    rfl
  case distance =>
    refine hamming_complementAt_eq_card fun r hr => ?_
    rw [length_group hk]
    exact hrange r (mem_take_of_mem_group hk hr)
  case bit => rw [getElem?_complementAt, hx, Option.map_some]
  case few => exact exec_of_lengthFault (i := .noise4 b draws) (.inl hfew)
  case long => exact exec_of_lengthFault (i := .noise4 b draws) (.inr hlong)

end Sys2Proof.Machine

/-! PROOF. The system family (45_system R150 to R153). LDCW and RDCW complete by `exec_ldcw` and `exec_rdcw`; here stand what CLRERR and
RDERR do, when `CW` cannot be read, and that a saturated count never exceeds the true one. -/

namespace Sys2Proof.Machine

/-! ## What the four operations do -/

/-- RDCW finds no value in `CW` (R151). -/
theorem exec_rdcw_of_cwv_eq_false {s : State} (h : s.cwv = false) : exec .rdcw s = .next (refuse .noVal s) :=
  exec_of_refusalCause_some (noValueError_eq_some.2 ⟨h, rfl⟩)

theorem exec_clrerr (s : State) : exec .clrerr s = .next (respond .done (clearErrors s)) :=
  exec_of_refusalCause_none rfl

theorem exec_rderr (s : State) : exec .rderr s = .next (respond (.status s.errcnt s.cmderr s.errcode) s) :=
  exec_of_refusalCause_none rfl

/-- A stream operation that completes leaves `CW` without a value (R12). -/
theorem cwv_eq_false_of_stream_ok {i : Instr} {s t : State} {r : Result} (hstream : isStream i = true)
    (h : exec i s = .next t) (hr : t.rsp = some (.ok r)) : t.cwv = false := by
  obtain ⟨-, rfl⟩ := exec_answers_ok h hr
  simp [hstream, suppliesCw_of_isStream hstream]

/-- The counter never shows more than was counted (R13). -/
theorem saturate_le (c : Config) (k : Nat) : saturate c k ≤ k := by
  cases hw : c.errw with
  | none => exact (saturate_unbounded hw k).le
  | some w => exact saturate_bounded hw k ▸ Nat.min_le_left _ _

/-! ## The obligations -/

/-- Settles O1: the one check of LDCW, on the operand's length, decides between the load and the refusal. -/
theorem ldcwLoadsTheCodewordRegister : Obligations.LdcwLoadsTheCodewordRegister := by
  unfold Obligations.LdcwLoadsTheCodewordRegister
  refine fun s v => ⟨rfl, exec_ldcw, fun hv => ?_⟩
  exact exec_of_refusalCause_some (codewordError_eq_some.2 ⟨hv, rfl⟩)

/-- Settles O2: `CWV` alone decides, and both reset and a completed stream operation leave it 0. -/
theorem rdcwReadsTheCodewordRegister : Obligations.RdcwReadsTheCodewordRegister := by
  unfold Obligations.RdcwReadsTheCodewordRegister
  refine ⟨fun s => ⟨rfl, exec_rdcw, exec_rdcw_of_cwv_eq_false⟩, fun c => ?reset, fun i s t r hstream h hr => ?stream⟩
  case reset => exact exec_rdcw_of_cwv_eq_false (resetOf_cwv c)
  case stream => exact exec_rdcw_of_cwv_eq_false (cwv_eq_false_of_stream_ok hstream h hr)

/-- Settles O3: CLRERR has no check and writes `ERRCNT` alone. -/
theorem clrerrClearsOnlyTheCounter : Obligations.ClrerrClearsOnlyTheCounter := by
  unfold Obligations.ClrerrClearsOnlyTheCounter
  exact fun s => ⟨rfl, exec_clrerr s⟩

/-- Settles O4: RDERR has no check and writes nothing; a saturated count is at most the true one. -/
theorem rderrReadsTheStatus : Obligations.RderrReadsTheStatus := by
  unfold Obligations.RderrReadsTheStatus
  refine ⟨fun s => ⟨rfl, exec_rderr s⟩, fun c => ⟨_, exec_rderr _, ?reset⟩, fun c w k _ hsat => ?lowerBound⟩
  case reset => rw [respond_rsp, resetOf_errcnt, resetOf_cmderr, resetOf_errcode]
  case lowerBound => exact hsat ▸ saturate_le c k

end Sys2Proof.Machine

/-! PROOF. The refusal (60_exceptions R165). No check reads `CMDERR`, `ERRCODE` or the last response, and no result but RDERR's does, so
a refusal and a completed operation commute: `refusalCause_refuse` and `completed_refuse` say so for the two outcomes of an operation. -/

namespace Sys2Proof.Machine

/-! ## An operation after a refusal -/

/-- No check reads what a refusal writes. -/
@[simp] theorem refusalCause_refuse (i : Instr) (e : Cause) (s : State) : refusalCause i (refuse e s) = refusalCause i s := by
  cases i <;> rfl

/-- Of two refusals the later one is all that shows: `ERRCODE` is overwritten (R15). -/
@[simp] theorem refuse_refuse (e e' : Cause) (s : State) : refuse e' (refuse e s) = refuse e' s := rfl

/-- An operation that completes keeps the status an earlier refusal has left, and otherwise ends as without it. -/
theorem completed_refuse {i : Instr} (e : Cause) (s : State) (h : i ≠ .rderr) :
    completed i (refuse e s) = { completed i s with cmderr := true, errcode := e.code } := by
  cases i with
  | rderr => exact absurd rfl h
  | _ => rfl

/-! ## The obligation -/

/-- Settles O44: an operation is refused or completes, and an earlier refusal changes neither which of the two it is nor, but for RDERR,
what it answers. -/
theorem refusalIsPrecise : Obligations.RefusalIsPrecise := by
  unfold Obligations.RefusalIsPrecise
  refine ⟨fun e s => rfl, fun i s t h => ?outcomes, fun i e s hi => ?after⟩
  case outcomes =>
    obtain ⟨e, -, rfl⟩ | ⟨-, rfl⟩ := exec_cases h
    · exact .inl ⟨e, rfl⟩
    · exact .inr ⟨completed_cmderr i s, completed_errcode i s, _, completed_rsp i s⟩
  case after =>
    cases hcause : refusalCause i s with
    | some e' =>
      refine ⟨_, _, exec_of_refusalCause_some hcause,
        exec_of_refusalCause_some ((refusalCause_refuse i e s).trans hcause), ?_⟩
      simp
    | none =>
      refine ⟨_, _, exec_of_refusalCause_none hcause,
        exec_of_refusalCause_none ((refusalCause_refuse i e s).trans hcause), ?_⟩
      simp [completed_refuse e s hi]

end Sys2Proof.Machine

/-! PROOF. The hazards family (70_reset_and_hazards R181, R187). An operation that reads neither `CW` nor the status checks and answers from
its operands and the configuration: `refusalCause_congr` and `resultOf_congr`. Write mode undoes itself, so on a valid codeword, which is
the write mode of its skeleton, it gives the skeleton back: `writeParity_of_validCodeword`. -/

namespace Sys2Proof.Machine

/-! ## Results and operands (R181) -/

/-- Of the state, the checks of an operation that does not read `CW` see the configuration alone. -/
theorem refusalCause_congr {i : Instr} {s s' : State} (hcfg : s.cfg = s'.cfg) (hread : readsCw i = false) :
    refusalCause i s = refusalCause i s' := by
  cases i with
  | rdcw | dlv | syn | synw | syne | flip1 => simp [readsCw] at hread
  | clrerr | rderr => rfl
  | _ => simp only [refusalCause, hcfg]

/-- Of the state, the results of an operation that reads neither `CW` nor the status see the configuration alone. -/
theorem resultOf_congr {i : Instr} {s s' : State} (hcfg : s.cfg = s'.cfg) (hread : readsCw i = false) (hi : i ≠ .rderr) :
    resultOf i s = resultOf i s' := by
  cases i with
  | rdcw | dlv | syn | synw | syne | flip1 => simp [readsCw] at hread
  | rderr => exact absurd rfl hi
  | ldcw | clrerr | ilv | ser8 | des8 => rfl
  | _ => simp only [resultOf, hcfg]

/-! ## SYNW on slots that are not zero (R187) -/

/-- A valid codeword is the write mode of its skeleton, and write mode undoes itself. -/
theorem writeParity_of_validCodeword {c : Config} {v : Bits} (hv : ValidCodeword c v) :
    writeParity c v = buildSkeleton c (stripParity c v) :=
  calc writeParity c v
    _ = writeParity c (encodeBlock c (stripParity c v)) := by rw [encodeBlock_stripParity hv]
    _ = buildSkeleton c (stripParity c v) := writeParity_writeParity (length_buildSkeleton c _)

/-! ## The obligations -/

/-- Settles O51: both states refuse with the same cause, or both complete with the same result. -/
theorem resultsDependOnOperandsAlone : Obligations.ResultsDependOnOperandsAlone := by
  unfold Obligations.ResultsDependOnOperandsAlone
  intro i s s' hcfg hread hi
  have hsame := refusalCause_congr hcfg hread
  cases hcause : refusalCause i s with
  | some e => exact ⟨_, _, exec_of_refusalCause_some hcause, exec_of_refusalCause_some (hsame.symm.trans hcause), rfl⟩
  | none =>
    refine ⟨_, _, exec_of_refusalCause_none hcause, exec_of_refusalCause_none (hsame.symm.trans hcause), ?_⟩
    rw [completed_rsp, completed_rsp, resultOf_congr hcfg hread hi]

/-- Settles O52: write mode undoes itself, whether its argument is a skeleton or a valid codeword; DLV and ILV zero the slots first. -/
theorem synwHazard : Obligations.SynwHazard := by
  unfold Obligations.SynwHazard
  refine ⟨fun s d hd => ?twice, fun s v hv => ?valid, fun c v _ => syndrome_writeParity_eq_zero_iff, fun s v hv => ?reencode⟩
  case twice =>
    exact ⟨_, _, _, exec_ilv hd, exec_synw rfl, exec_synw rfl, rfl, writeParity_writeParity (length_buildSkeleton s.cfg d)⟩
  case valid =>
    have hskeleton := writeParity_of_validCodeword hv
    obtain ⟨hlen, -⟩ := hv
    refine ⟨_, _, exec_ldcw hlen, exec_synw rfl, fun j hj => ?_, hskeleton⟩
    exact (congrArg (bitAt · (2 ^ j)) hskeleton).trans (bitAt_buildSkeleton_two_pow _ hj)
  case reencode =>
    exact ⟨_, _, _, _, _, exec_ldcw hv, exec_dlv rfl, rfl, exec_ilv (length_stripParity s.cfg v), exec_synw rfl,
      validCodeword_encodeBlock s.cfg (stripParity s.cfg v)⟩

end Sys2Proof.Machine

/-! PROOF. The command words (30_encoding R53, R54, R56; layout: log 4, log 5). Each operand format reads exactly the operands whose bits
stand at the head of the operand bits, one `_eq_ok` lemma per format; `decode_eq_ok` joins them, and both directions of the round trip are
read off it. -/

namespace Sys2Proof

/-! ## The elements of a sequence -/

/-- `write` and `read` are inverse between the valid values and the elements of `k` bits. -/
structure FieldCodec {α : Type} (k : Nat) (valid : α → Prop) (write : α → Bits) (read : Bits → α) : Prop where
  length_write : ∀ a, valid a → (write a).length = k
  read_write : ∀ a, valid a → read (write a) = a
  valid_read : ∀ f, f.length = k → valid (read f)
  write_read : ∀ f, f.length = k → write (read f) = f

/-- A draw is `k` bits, least significant first. -/
theorem fieldCodec_draw (k : Nat) : FieldCodec k (fun r => r < 2 ^ k) (fieldOf k) fieldValue where
  length_write r _ := length_fieldOf k r
  read_write _ hr := fieldValue_fieldOf hr
  valid_read f hf := hf ▸ fieldValue_lt f
  write_read f hf := hf ▸ fieldOf_fieldValue f

/-- A byte is 8 bits, least significant first. -/
theorem fieldCodec_byte :
    FieldCodec 8 (fun _ : Byte => True) (fun x => fieldOf 8 x.toNat) (fun f => BitVec.ofNat 8 (fieldValue f)) where
  length_write x _ := length_fieldOf 8 x.toNat
  read_write x _ := by rw [fieldValue_fieldOf x.isLt, BitVec.ofNat_toNat, BitVec.setWidth_eq]
  valid_read _ _ := trivial
  write_read f hf := by
    have hlt : fieldValue f < 2 ^ 8 := hf ▸ fieldValue_lt f
    rw [BitVec.toNat_ofNat, Nat.mod_eq_of_lt hlt, ← hf, fieldOf_fieldValue]

/-- A bit is its own element. -/
theorem fieldCodec_bit : FieldCodec 1 (fun _ : Bit => True) ([·]) bitOfElement where
  length_write _ _ := rfl
  read_write _ _ := rfl
  valid_read _ _ := trivial
  write_read f hf := by
    obtain ⟨b, rfl⟩ := List.length_eq_one_iff.1 hf
    rfl

section
variable {α : Type} {k : Nat} {valid : α → Prop} {write : α → Bits} {read : Bits → α}

/-- A sequence that is read is the beats of its values, which are valid. -/
theorem FieldCodec.of_takeSequence (codec : FieldCodec k valid write read) {bits rest : Bits} {es : List Bits}
    (h : takeSequence k bits = some (es, rest)) :
    (∀ x ∈ es.map read, valid x) ∧ bits = beats ((es.map read).map write) ++ rest := by
  obtain ⟨hlen, rfl⟩ := takeSequence_eq_some h
  have hes : (es.map read).map write = es := by
    rw [List.map_map]
    exact (List.map_congr_left fun f hf => codec.write_read f (hlen f hf)).trans (List.map_id' es)
  exact ⟨List.forall_mem_map.2 fun f hf => codec.valid_read f (hlen f hf), by rw [hes]⟩

/-- The beats of valid values are read as these values, whatever follows. -/
theorem FieldCodec.takeSequence_beats (codec : FieldCodec k valid write read) {xs : List α} (h : ∀ x ∈ xs, valid x)
    (rest : Bits) : ∃ es, takeSequence k (beats (xs.map write) ++ rest) = some (es, rest) ∧ es.map read = xs := by
  refine ⟨xs.map write, Sys2Proof.takeSequence_beats ?_ rest, ?_⟩
  · exact List.forall_mem_map.2 fun x hx => codec.length_write x (h x hx)
  · rw [List.map_map]
    exact (List.map_congr_left fun x hx => codec.read_write x (h x hx)).trans (List.map_id' xs)

end

/-! ## What each operand format reads (R53) -/

/-- Formats C and D. -/
theorem operandField_eq_ok {k : Nat} {mk : Bits → Instr} {bits : Bits} {i : Instr} :
    operandField k mk bits = .ok i ↔ ∃ v, v.length = k ∧ v <+: bits ∧ mk v = i := by
  constructor
  · intro h
    unfold operandField at h
    split at h
    · cases h
    next v rest htake =>
      obtain ⟨hlen, rfl⟩ := takeField_eq_some.1 htake
      exact ⟨v, hlen, List.prefix_append v rest, Except.ok.inj h⟩
  · rintro ⟨v, hlen, ⟨rest, rfl⟩, rfl⟩
    rw [operandField, takeField_append hlen]

/-- Format P. -/
theorem operandP_eq_ok {c : Config} {mk : Nat → Instr} {bits : Bits} {i : Instr} :
    operandP c mk bits = .ok i ↔ ∃ r, r < 2 ^ c.s ∧ fieldOf c.s r <+: bits ∧ mk r = i := by
  have draw := fieldCodec_draw c.s
  rw [operandP, operandField_eq_ok]
  constructor
  · rintro ⟨f, hlen, hpre, rfl⟩
    exact ⟨fieldValue f, draw.valid_read f hlen, (draw.write_read f hlen).symm ▸ hpre, rfl⟩
  · rintro ⟨r, hr, hpre, rfl⟩
    exact ⟨fieldOf c.s r, draw.length_write r hr, hpre, congrArg mk (draw.read_write r hr)⟩

/-- Format Y. -/
theorem operandY_eq_ok {mk : List Byte → Instr} {bits : Bits} {i : Instr} :
    operandY mk bits = .ok i ↔ ∃ y, beats (y.map fun x => fieldOf 8 x.toNat) <+: bits ∧ mk y = i := by
  constructor
  · intro h
    unfold operandY at h
    split at h
    · cases h
    next es rest htake =>
      obtain ⟨-, rfl⟩ := fieldCodec_byte.of_takeSequence htake
      exact ⟨_, List.prefix_append _ rest, Except.ok.inj h⟩
  · rintro ⟨y, ⟨rest, rfl⟩, rfl⟩
    obtain ⟨es, htake, rfl⟩ := fieldCodec_byte.takeSequence_beats (fun x (_ : x ∈ y) => trivial) rest
    rw [operandY, htake]

/-- Format B. -/
theorem operandB_eq_ok {mk : Bits → Instr} {bits : Bits} {i : Instr} :
    operandB mk bits = .ok i ↔ ∃ b, beats (b.map ([·])) <+: bits ∧ mk b = i := by
  constructor
  · intro h
    unfold operandB at h
    split at h
    · cases h
    next es rest htake =>
      obtain ⟨-, rfl⟩ := fieldCodec_bit.of_takeSequence htake
      exact ⟨_, List.prefix_append _ rest, Except.ok.inj h⟩
  · rintro ⟨b, ⟨rest, rfl⟩, rfl⟩
    obtain ⟨es, htake, rfl⟩ := fieldCodec_bit.takeSequence_beats (fun x (_ : x ∈ b) => trivial) rest
    rw [operandB, htake]

/-- Format BR: the draws stand after the end of the bit sequence (log 4). -/
theorem operandBR_eq_ok {c : Config} {mk : Bits → List Nat → Instr} {bits : Bits} {i : Instr} :
    operandBR c mk bits = .ok i ↔ ∃ b draws, (∀ r ∈ draws, r < 2 ^ c.s) ∧
      beats (b.map ([·])) ++ beats (draws.map (fieldOf c.s)) <+: bits ∧ mk b draws = i := by
  have draw := fieldCodec_draw c.s
  constructor
  · intro h
    unfold operandBR at h
    split at h
    · cases h
    next es rest htake =>
      split at h
      · cases h
      next fs rest' htake' =>
        obtain ⟨-, rfl⟩ := fieldCodec_bit.of_takeSequence htake
        obtain ⟨hdraws, rfl⟩ := draw.of_takeSequence htake'
        exact ⟨_, _, hdraws, ⟨rest', List.append_assoc _ _ _⟩, Except.ok.inj h⟩
  · rintro ⟨b, draws, hdraws, ⟨rest, rfl⟩, rfl⟩
    rw [List.append_assoc]
    obtain ⟨es, htake, rfl⟩ := fieldCodec_bit.takeSequence_beats (fun x (_ : x ∈ b) => trivial)
      (beats (draws.map (fieldOf c.s)) ++ rest)
    obtain ⟨fs, htake', rfl⟩ := draw.takeSequence_beats hdraws rest
    rw [operandBR, htake]
    simp only [htake']

/-! ## The decoder -/

/-- A command decodes to exactly the well-formed operation of its `op` whose operand bits it begins with. -/
theorem decode_eq_ok {c : Config} {w : CommandWord} {i : Instr} :
    decode c w = .ok i ↔ WellFormed c i = true ∧ opOf i = w.op ∧ operandBits c i <+: w.operands := by
  constructor
  · intro h
    unfold decode at h
    split at h
    -- formats C and D
    case h_1 hop | h_7 hop | h_12 hop | h_13 hop =>
      obtain ⟨v, hlen, hpre, rfl⟩ := operandField_eq_ok.1 h
      exact ⟨beq_iff_eq.2 hlen, BitVec.eq_of_toNat_eq hop.symm, hpre⟩
    -- format Z
    case h_2 hop | h_3 hop | h_4 hop | h_8 hop | h_9 hop | h_10 hop | h_11 hop =>
      obtain rfl := Except.ok.inj h
      exact ⟨rfl, BitVec.eq_of_toNat_eq hop.symm, List.nil_prefix⟩
    -- format Y
    case h_5 hop =>
      obtain ⟨y, hpre, rfl⟩ := operandY_eq_ok.1 h
      exact ⟨rfl, BitVec.eq_of_toNat_eq hop.symm, hpre⟩
    -- format B
    case h_6 hop | h_14 hop | h_15 hop =>
      obtain ⟨b, hpre, rfl⟩ := operandB_eq_ok.1 h
      exact ⟨rfl, BitVec.eq_of_toNat_eq hop.symm, hpre⟩
    -- format P
    case h_16 hop =>
      obtain ⟨r, hr, hpre, rfl⟩ := operandP_eq_ok.1 h
      exact ⟨decide_eq_true hr, BitVec.eq_of_toNat_eq hop.symm, hpre⟩
    -- format BR
    case h_17 hop | h_18 hop =>
      obtain ⟨b, draws, hdraws, hpre, rfl⟩ := operandBR_eq_ok.1 h
      exact ⟨by simpa [WellFormed] using hdraws, BitVec.eq_of_toNat_eq hop.symm, hpre⟩
    -- the reserved values (R57)
    case h_19 => cases h
  · obtain ⟨op, bits⟩ := w
    rintro ⟨hwf, rfl, hpre⟩
    cases i with
    | ldcw v | ilv v | encb v | decb v => exact operandField_eq_ok.2 ⟨v, beq_iff_eq.1 hwf, hpre, rfl⟩
    | rdcw | clrerr | rderr | dlv | syn | synw | syne => rfl
    | ser8 y => exact operandY_eq_ok.2 ⟨y, hpre, rfl⟩
    | des8 b | encs b | decs b => exact operandB_eq_ok.2 ⟨b, hpre, rfl⟩
    | flip1 r => exact operandP_eq_ok.2 ⟨r, of_decide_eq_true hwf, hpre, rfl⟩
    | noise1 b draws | noise4 b draws =>
      exact operandBR_eq_ok.2 ⟨b, draws, by simpa [WellFormed] using hwf, hpre, rfl⟩

/-! ## The obligations -/

/-- Settles O57: the operand bits of an operation stand at the head of themselves with any bits after them. -/
theorem decodeInvertsEncode : Obligations.DecodeInvertsEncode := by
  unfold Obligations.DecodeInvertsEncode
  exact fun c i rest hwf => decode_eq_ok.2 ⟨hwf, rfl, List.prefix_append (operandBits c i) rest⟩

/-- Settles O58: the other direction of `decode_eq_ok`. -/
theorem decodedIsWellFormedAndReencodes : Obligations.DecodedIsWellFormedAndReencodes := by
  unfold Obligations.DecodedIsWellFormedAndReencodes
  exact fun c w i h => decode_eq_ok.1 h

/-- Settles O56: each word is decoded as it stands. -/
theorem handWrittenWordsDecode : Obligations.HandWrittenWordsDecode := by
  unfold Obligations.HandWrittenWordsDecode
  exact ⟨by decide, by decide, by decide, by decide⟩

end Sys2Proof

/-! PROOF. The whole machine (10_state R11, R13, R15, R17; 20_memory R40; 43_codec R131). Every operation is refused or completes
(`exec_cases`) and every step waits, resets, executes or refuses (`step_cases`), so what each of these keeps, every step keeps. -/

namespace Sys2Proof.Machine

/-! ## Every operation and every step ends (R131) -/

theorem exec_completes (i : Instr) (s : State) : ∃ t, exec i s = .next t := by
  rw [exec_eq_checked]
  exact checked_completes _ _ _

theorem step_completes (s : State) : ∃ t, step s = .next t := by
  rcases hin : s.inbox with _ | ⟨_ | _, rest⟩
  case nil => exact ⟨s, step_idle hin⟩
  case cons.reset => exact ⟨_, step_reset hin⟩
  case cons.command w =>
    cases hd : decodeCommand s w with
    | ok i => exact step_command hin hd ▸ exec_completes i (takeMove rest s)
    | error e => exact ⟨_, step_undecoded hin hd⟩

/-! ## What no operation writes (R17, R40) -/

@[simp] theorem completed_inbox (i : Instr) (s : State) : (completed i s).inbox = s.inbox := by cases i <;> rfl

theorem exec_cfg_inbox {i : Instr} {s t : State} (h : exec i s = .next t) : t.cfg = s.cfg ∧ t.inbox = s.inbox := by
  obtain ⟨e, -, rfl⟩ | ⟨-, rfl⟩ := exec_cases h
  · exact ⟨refuse_cfg e s, refuse_inbox e s⟩
  · exact ⟨completed_cfg i s, completed_inbox i s⟩

theorem step_cfg_inbox {s t : State} (h : step s = .next t) : t.cfg = s.cfg ∧ t.inbox = s.inbox.tail := by
  obtain ⟨hin, rfl⟩ | ⟨rest, hin, rfl⟩ | ⟨w, rest, i, hin, -, hexec⟩ | ⟨w, rest, e, hin, -, rfl⟩ := step_cases h <;>
    rw [hin]
  · exact ⟨rfl, rfl⟩
  · exact ⟨rfl, rfl⟩
  · exact exec_cfg_inbox hexec
  · exact ⟨rfl, rfl⟩

/-! ## What keeps the invariant -/

theorem Cause.code_toNat_le (e : Cause) : e.code.toNat ≤ 4 := by cases e <;> decide

theorem Cause.code_ne_zero (e : Cause) : e.code ≠ 0#3 := by cases e <;> decide

theorem inv_refuse {s : State} (e : Cause) (h : s.Inv) : (refuse e s).Inv := by
  obtain ⟨hcw, herrcnt, -⟩ := h
  exact ⟨hcw, herrcnt, e.code_toNat_le, iff_of_true rfl e.code_ne_zero, by simp [refusalRecorded]⟩

theorem inv_takeMove {s : State} (rest : List HostMove) (h : s.Inv) : (takeMove rest s).Inv := h

/-- The reset event needs no invariant before it: it writes all that the invariant speaks of. -/
theorem inv_applyReset (s : State) : (applyReset s).Inv :=
  ⟨length_freeCw s.cfg s.stamp, saturate_zero s.cfg, by simp, by simp, rfl⟩

theorem inv_resetOf (c : Config) : (State.resetOf c).Inv :=
  ⟨length_freeCw c 0, saturate_zero c, by simp, by simp, rfl⟩

/-- An operation that completes leaves `N` bits in `CW` (R11): an operand written there has passed its check, and the other writers give
`N` bits or as many as they find. -/
theorem length_completed_cw {i : Instr} {s : State} (hcw : s.cw.length = s.cfg.n) (h : refusalCause i s = none) :
    (completed i s).cw.length = s.cfg.n := by
  cases i with
  | ldcw v => exact codewordError_eq_none.1 h
  | ilv d => exact length_buildSkeleton s.cfg d
  | encb d => exact length_encodeBlock s.cfg d
  | decb v => exact (length_correct_cw s.cfg v).trans (codewordError_eq_none.1 h)
  | synw => exact length_writeParity s.cfg s.cw
  | syne => exact (length_correct_cw s.cfg s.cw).trans hcw
  | flip1 r => exact (length_flipAt s.cw r).trans hcw
  | encs | decs | noise1 | noise4 => exact length_freeCw s.cfg s.stamp
  | rdcw | clrerr | rderr | ser8 | des8 | dlv | syn => exact hcw

/-- An operation that completes leaves a count that fits `ERRW` (R13): every writer but CLRERR saturates. -/
theorem saturate_completed_errcnt {s : State} (i : Instr) (h : saturate s.cfg s.errcnt = s.errcnt) :
    saturate s.cfg (completed i s).errcnt = (completed i s).errcnt := by
  cases hw : writesErrcnt i with
  | false => rwa [completed_errcnt_of_not_writer s hw]
  | true =>
    cases i with
    | clrerr => exact saturate_zero s.cfg
    | syne | decb | decs => exact saturate_saturate s.cfg _
    | _ => cases hw

theorem inv_completed {i : Instr} {s : State} (h : s.Inv) (hcause : refusalCause i s = none) : (completed i s).Inv := by
  obtain ⟨hcw, herrcnt, hcode, hcmderr, -⟩ := h
  refine ⟨?_, ?_, ?_, ?_, rfl⟩
  · rw [completed_cfg, length_completed_cw hcw hcause]
  · rw [completed_cfg, saturate_completed_errcnt i herrcnt]
  · rwa [completed_errcode]
  · rwa [completed_cmderr, completed_errcode]

theorem inv_exec {i : Instr} {s t : State} (h : s.Inv) (hexec : exec i s = .next t) : t.Inv := by
  obtain ⟨e, -, rfl⟩ | ⟨hcause, rfl⟩ := exec_cases hexec
  · exact inv_refuse e h
  · exact inv_completed h hcause

/-! ## The obligations -/

/-- Settles O59: each of the four things a step can do keeps the invariant. -/
theorem stepKeepsInvariant : Obligations.StepKeepsInvariant := by
  unfold Obligations.StepKeepsInvariant
  intro s t hinv h
  obtain ⟨-, rfl⟩ | ⟨rest, -, rfl⟩ | ⟨w, rest, i, -, -, hexec⟩ | ⟨w, rest, e, -, -, rfl⟩ := step_cases h
  · exact hinv
  · exact inv_applyReset (takeMove rest s)
  · exact inv_exec (inv_takeMove rest hinv) hexec
  · exact inv_refuse (DecodeError.cause e) (inv_takeMove rest hinv)

/-- Settles O60: `State.reset` is `State.resetOf` at one configuration. -/
theorem resetHasInvariant : Obligations.ResetHasInvariant := by
  unfold Obligations.ResetHasInvariant
  exact ⟨inv_resetOf Config.worked, inv_resetOf⟩

/-- Settles O54: an operation and a step end in a next state, and what they can end in keeps the configuration and the moves. -/
theorem everyOperationEndsAndKeepsTheConfiguration : Obligations.EveryOperationEndsAndKeepsTheConfiguration := by
  unfold Obligations.EveryOperationEndsAndKeepsTheConfiguration
  refine ⟨fun i s => ?operation, fun s => ?step⟩
  case operation =>
    obtain ⟨t, h⟩ := exec_completes i s
    exact ⟨t, h, exec_cfg_inbox h⟩
  case step =>
    obtain ⟨t, h⟩ := step_completes s
    exact ⟨t, h, step_cfg_inbox h⟩

/-- Settles O55: `step_command` and `step_idle`, for the state in which the move has been taken. -/
theorem stepRunsTheDecodedOperation : Obligations.StepRunsTheDecodedOperation := by
  unfold Obligations.StepRunsTheDecodedOperation
  exact ⟨fun s w rest i hin hd => step_command hin hd, fun s hin => step_idle hin⟩

end Sys2Proof.Machine

/-! PROOF. The independence of codewords (20_memory R41, 44_noise R147). Whole groups at the head of a sequence are cut apart from the rest
(`segment_append_whole`), and every stream function maps over the groups. -/

namespace Sys2Proof.Machine

/-! ## Streams cut at a codeword boundary -/

theorem padTo_append {a : Bits} {m : Nat} (b : Bits) (h : a.length % m = 0) : padTo (a ++ b) m = a ++ padTo b m := by
  rw [padTo, padTo, List.length_append, Nat.add_mod, h, Nat.zero_add, Nat.mod_mod, List.append_assoc]

theorem encodeStream_append {c : Config} {a : Bits} (b : Bits) (h : a.length % c.mode = 0) :
    encodeStream c (a ++ b) = encodeStream c a ++ encodeStream c b := by
  rw [encodeStream, encodeStream, encodeStream, padTo_append b h, padTo_of_whole h,
    segment_append_whole c.mode_pos a (padTo b c.mode) h, List.flatMap_append]

theorem decodedBits_append {c : Config} {a : Bits} (b : Bits) (h : a.length % c.n = 0) :
    decodedBits c (a ++ b) = decodedBits c a ++ decodedBits c b := by
  rw [decodedBits, segment_append_whole (n_pos c) a b h, List.flatMap_append]
  rfl

theorem uncorrectable_append {c : Config} {a : Bits} (b : Bits) (h : a.length % c.n = 0) :
    uncorrectable c (a ++ b) = uncorrectable c a + uncorrectable c b := by
  rw [uncorrectable, segment_append_whole (n_pos c) a b h, List.map_append, List.sum_append]
  rfl

theorem noiseOne_append {c : Config} {a : Bits} (b : Bits) {r : List Nat} (r' : List Nat) (h : a.length % c.n = 0)
    (hr : r.length = a.length / c.n) : noiseOne c (a ++ b) (r ++ r') = noiseOne c a r ++ noiseOne c b r' := by
  have hlen : (segment a c.n).length = r.length := by rw [length_segment, hr]
  rw [noiseOne, segment_append_whole (n_pos c) a b h, List.zipWith_append hlen, List.flatten_append]
  rfl

theorem noiseFour_append {c : Config} {a : Bits} (b : Bits) {r : List Nat} (r' : List Nat) (h : a.length % c.n = 0)
    (hr : r.length = 4 * (a.length / c.n)) : noiseFour c (a ++ b) (r ++ r') = noiseFour c a r ++ noiseFour c b r' := by
  have hgroups : r.length % 4 = 0 := by rw [hr, Nat.mul_mod_right]
  have hlen : (segment a c.n).length = (segment r 4).length := by
    rw [length_segment, length_segment, hr, Nat.mul_div_cancel_left _ (by decide)]
  rw [noiseFour, segment_append_whole (n_pos c) a b h, segment_append_whole (by decide) r r' hgroups,
    List.zipWith_append hlen, List.flatten_append]
  rfl

/-! ## The counter (R13) -/

/-- Saturating on the way to a sum does not change where the sum saturates. -/
theorem saturate_saturate_add (c : Config) (a b : Nat) : saturate c (saturate c a + b) = saturate c (a + b) := by
  cases hw : c.errw with
  | none => rw [saturate_unbounded hw a]
  | some w =>
    simp only [saturate_bounded hw]
    omega

/-! ## The obligation -/

/-- Settles O38: each stream function, and the counter, splits at a codeword boundary. -/
theorem codewordsAreIndependent : Obligations.CodewordsAreIndependent := by
  unfold Obligations.CodewordsAreIndependent
  refine ⟨fun c a b h => encodeStream_append b h, fun c a b h => ⟨decodedBits_append b h, uncorrectable_append b h, ?one, ?four⟩,
    saturate_saturate_add⟩
  case one => exact fun r r' hr => noiseOne_append b r' h hr
  case four => exact fun r r' hr => noiseFour_append b r' h hr

end Sys2Proof.Machine
